-- ==== Sys2Proof/Word.lean ====
section
/-! DEFINITION. The word types of the engine and their plainest arithmetic (00_scope.md R4, R5, R6). -/

namespace Sys2Proof

/-- A word: every stack element, memory cell, heap cell, immediate and the program counter (R4, XLEN = 64; R6). -/
abbrev Word := BitVec 64

/-- An instruction word of ILEN = XLEN + OPW = 72 bits (R4, R80). -/
abbrev IWord := BitVec 72

/-- A byte of a program image or dump (R89); no instruction sees one. -/
abbrev Byte := BitVec 8

/-- MIN, the smallest word value, -(2^63) (R4). -/
def wordMin : Int := -9223372036854775808

/-- MAX, the largest word value, 2^63 - 1 (R4). -/
def wordMax : Int := 9223372036854775807

/-- sint of R6: the signed value of a word. -/
abbrev sint (w : Word) : Int := w.toInt

/-- A mathematical integer lies in MIN .. MAX (R6, R181). -/
abbrev fitsWord (r : Int) : Prop := wordMin ≤ r ∧ r ≤ wordMax

/-- The word whose signed value is `r`, where `r` fits a word (R6). -/
abbrev wordOf (r : Int) : Word := BitVec.ofInt 64 r

end Sys2Proof
end

