-- ==== Sys2Proof/Syntax.lean ====
section
/-! DEFINITION. The instructions: the tagged union of 30_encoding.md R93 over the closed enumeration of R84, and the columns of R84's table. -/

namespace Sys2Proof

/-- The two formats of R82: immediate present, immediate absent. -/
inductive Format where
  | I
  | N
deriving DecidableEq, Repr

/-- The 23 instructions of R84, in opcode order; `ldc`, `jmp` and `jz` carry one signed word (R83, R93). -/
inductive Instr where
  /-- load-constant, R130 -/
  | ldc (k : Word)
  /-- load-indirect, R140 -/
  | load
  /-- store-indirect, R141 -/
  | store
  /-- pop, R131 -/
  | pop
  /-- allocate, R142 -/
  | alloc
  /-- unconditional-jump, R160 -/
  | jmp (t : Word)
  /-- conditional-jump-if-zero, R161 -/
  | jz (t : Word)
  /-- halt, R162 -/
  | halt
  /-- add, R182 -/
  | add
  /-- subtract, R183 -/
  | sub
  /-- multiply, R184 -/
  | mul
  /-- divide, R186 -/
  | div
  /-- modulo, R187 -/
  | mod
  /-- logical-and, R211 -/
  | and
  /-- logical-or, R212 -/
  | or
  /-- equal, R231 -/
  | eq
  /-- not-equal, R232 -/
  | ne
  /-- less, R233 -/
  | lt
  /-- less-or-equal, R234 -/
  | le
  /-- greater, R235 -/
  | gt
  /-- greater-or-equal, R236 -/
  | ge
  /-- arithmetic-negate, R188 -/
  | neg
  /-- logical-not, R213 -/
  | not
deriving DecidableEq, Repr

/-- The column "Format" of R84. -/
def Instr.format : Instr → Format
  | .ldc _ | .jmp _ | .jz _ => .I
  | .load | .store | .pop | .alloc | .halt | .add | .sub | .mul | .div | .mod | .and | .or
  | .eq | .ne | .lt | .le | .gt | .ge | .neg | .not => .N

/-- How many elements the instruction needs on the stack: the argument of need(n), R252. -/
def Instr.needs : Instr → Nat
  | .ldc _ | .jmp _ | .halt => 0
  | .load | .pop | .alloc | .jz _ | .neg | .not => 1
  | .store | .add | .sub | .mul | .div | .mod | .and | .or
  | .eq | .ne | .lt | .le | .gt | .ge => 2

/-- The column "Pops" of R84. -/
def Instr.pops : Instr → Nat
  | .ldc _ | .jmp _ | .halt => 0
  | .load | .store | .pop | .alloc | .jz _ | .neg | .not => 1
  | .add | .sub | .mul | .div | .mod | .and | .or
  | .eq | .ne | .lt | .le | .gt | .ge => 2

/-- The column "Pushes" of R84. -/
def Instr.pushes : Instr → Nat
  | .store | .pop | .jmp _ | .jz _ | .halt => 0
  | .ldc _ | .load | .alloc | .add | .sub | .mul | .div | .mod | .and | .or
  | .eq | .ne | .lt | .le | .gt | .ge | .neg | .not => 1

/-- The jump target an instruction carries, if it is one of the two jumps (R160, R161, R163). -/
def Instr.target : Instr → Option Word
  | .jmp t | .jz t => some t
  | .ldc _ | .load | .store | .pop | .alloc | .halt | .add | .sub | .mul | .div | .mod | .and | .or
  | .eq | .ne | .lt | .le | .gt | .ge | .neg | .not => none

/-- The instruction never falls through to the next index (R160, R162). -/
def Instr.endsPath : Instr → Bool
  | .jmp _ | .halt => true
  | .ldc _ | .load | .store | .pop | .alloc | .jz _ | .add | .sub | .mul | .div | .mod | .and | .or
  | .eq | .ne | .lt | .le | .gt | .ge | .neg | .not => false

/-- The instructions that read an address or a length from the top of the stack (R55 to R57). -/
def Instr.readsIndex : Instr → Bool
  | .load | .store | .alloc => true
  | .ldc _ | .pop | .jmp _ | .jz _ | .halt | .add | .sub | .mul | .div | .mod | .and | .or
  | .eq | .ne | .lt | .le | .gt | .ge | .neg | .not => false

end Sys2Proof
end

