-- ==== Sys2Proof/Decode.lean ====
section
/-! DEFINITION. Decoding and encoding of instruction words (30_encoding.md R80 to R88), and their bytes (R89).
`decode` is total and rejects by name; `encode` stands after it, written from the same table. -/

namespace Sys2Proof

/-- Why a word, or a row of bytes, is no instruction. -/
inductive Reject where
  /-- `op` in 0x17 .. 0xFF (R85). -/
  | undefinedOpcode (op : BitVec 8)
  /-- A format N opcode whose `imm` field is not all zeros (R86). -/
  | reservedImmediate (op : BitVec 8)
  /-- Fewer than 9 bytes: no instruction word at all (R89). -/
  | truncated (bytes : Nat)
deriving DecidableEq, Repr

/-- `iw[7:0]` (R81). -/
def opField (iw : IWord) : BitVec 8 := iw.extractLsb' 0 8

/-- `iw[71:8]` (R81, R83). -/
def immField (iw : IWord) : Word := iw.extractLsb' 8 64

/-- A format N word: legal only with an all-zero `imm` field (R82, R86). -/
def formatN (op : BitVec 8) (imm : Word) (i : Instr) : Except Reject Instr :=
  if imm = 0#64 then .ok i else .error (.reservedImmediate op)

/-- decode of R88, over the opcode map of R84. -/
def decode (iw : IWord) : Except Reject Instr :=
  let op := opField iw
  let imm := immField iw
  match op.toNat with
  | 0x00 => .ok (.ldc imm)
  | 0x01 => formatN op imm .load
  | 0x02 => formatN op imm .store
  | 0x03 => formatN op imm .pop
  | 0x04 => formatN op imm .alloc
  | 0x05 => .ok (.jmp imm)
  | 0x06 => .ok (.jz imm)
  | 0x07 => formatN op imm .halt
  | 0x08 => formatN op imm .add
  | 0x09 => formatN op imm .sub
  | 0x0A => formatN op imm .mul
  | 0x0B => formatN op imm .div
  | 0x0C => formatN op imm .mod
  | 0x0D => formatN op imm .and
  | 0x0E => formatN op imm .or
  | 0x0F => formatN op imm .eq
  | 0x10 => formatN op imm .ne
  | 0x11 => formatN op imm .lt
  | 0x12 => formatN op imm .le
  | 0x13 => formatN op imm .gt
  | 0x14 => formatN op imm .ge
  | 0x15 => formatN op imm .neg
  | 0x16 => formatN op imm .not
  | _ => .error (.undefinedOpcode op)

/-- The column "op" of R84. -/
def Instr.opcode : Instr → BitVec 8
  | .ldc _ => 0x00#8
  | .load => 0x01#8
  | .store => 0x02#8
  | .pop => 0x03#8
  | .alloc => 0x04#8
  | .jmp _ => 0x05#8
  | .jz _ => 0x06#8
  | .halt => 0x07#8
  | .add => 0x08#8
  | .sub => 0x09#8
  | .mul => 0x0A#8
  | .div => 0x0B#8
  | .mod => 0x0C#8
  | .and => 0x0D#8
  | .or => 0x0E#8
  | .eq => 0x0F#8
  | .ne => 0x10#8
  | .lt => 0x11#8
  | .le => 0x12#8
  | .gt => 0x13#8
  | .ge => 0x14#8
  | .neg => 0x15#8
  | .not => 0x16#8

/-- The `imm` field of an instruction's word: its immediate, or zeros where it is absent (R82, R83). -/
def Instr.immediate : Instr → Word
  | .ldc k => k
  | .jmp t => t
  | .jz t => t
  | .load | .store | .pop | .alloc | .halt | .add | .sub | .mul | .div | .mod | .and | .or
  | .eq | .ne | .lt | .le | .gt | .ge | .neg | .not => 0#64

/-- encode of R88: `imm_bits ++ op_bits`. -/
def encode (i : Instr) : IWord := i.immediate ++ i.opcode

/-! Bytes (R89): least significant byte first. -/

/-- Byte `k` of an instruction word. -/
def wordByte (iw : IWord) (k : Nat) : Byte := iw.extractLsb' (8 * k) 8

/-- The 9 bytes of an instruction word, in image order (R89). -/
def toBytes (iw : IWord) : List Byte :=
  [wordByte iw 0, wordByte iw 1, wordByte iw 2, wordByte iw 3, wordByte iw 4,
   wordByte iw 5, wordByte iw 6, wordByte iw 7, wordByte iw 8]

/-- The instruction word of 9 bytes in image order (R89). -/
def ofBytes (b0 b1 b2 b3 b4 b5 b6 b7 b8 : Byte) : IWord :=
  b8 ++ b7 ++ b6 ++ b5 ++ b4 ++ b3 ++ b2 ++ b1 ++ b0

/-- The 8 bytes of a data word, least significant first (R89, D16). -/
def dataBytes (w : Word) : List Byte :=
  [w.extractLsb' 0 8, w.extractLsb' 8 8, w.extractLsb' 16 8, w.extractLsb' 24 8,
   w.extractLsb' 32 8, w.extractLsb' 40 8, w.extractLsb' 48 8, w.extractLsb' 56 8]

/-- The decoder over bytes: the instruction at the head of the list, and the bytes after it. Total; rejects by name. -/
def decodeBytes : List Byte → Except Reject (Instr × List Byte)
  | b0 :: b1 :: b2 :: b3 :: b4 :: b5 :: b6 :: b7 :: b8 :: rest =>
    match decode (ofBytes b0 b1 b2 b3 b4 b5 b6 b7 b8) with
    | .ok i => .ok (i, rest)
    | .error r => .error r
  | short => .error (.truncated short.length)

/-- The program image of a program: its words in index order, with no header, padding or terminator (R89). -/
def programImage : List IWord → List Byte
  | [] => []
  | iw :: rest => toBytes iw ++ programImage rest

/-- The program of an image; an image whose length is no multiple of 9 bytes is the image of no program (R89). -/
def imageProgram : List Byte → Option (List IWord)
  | [] => some []
  | b0 :: b1 :: b2 :: b3 :: b4 :: b5 :: b6 :: b7 :: b8 :: rest =>
    match imageProgram rest with
    | some p => some (ofBytes b0 b1 b2 b3 b4 b5 b6 b7 b8 :: p)
    | none => none
  | _ => none

/-- The instruction word that the table's numbering calls `w`: bit 0 is the least significant bit of the word (R5), and
the bits from `nbits` up are 0. -/
def tableWord (nbits w : Nat) : IWord := BitVec.ofNat 72 (w % 2 ^ nbits)

/-- What the decoder reads from the table word `w` laid out as 9 bytes (R89); no instruction is longer than 72 bits (R80). -/
def decodeTableWord (nbits w : Nat) : Option Instr :=
  if nbits ≤ 72 then
    match decodeBytes (toBytes (tableWord nbits w)) with
    | .ok (i, _) => some i
    | .error _ => none
  else none

end Sys2Proof
end

