-- ==== Sys2Proof/Config.lean ====
section
/-! DEFINITION. The implementation parameters of 00_scope.md R4, and the free values of a Faulted state (60_exceptions.md R260). -/

namespace Sys2Proof

/-- PLEN_MAX = MAX, the largest program length (R4, D21). -/
def plenMax : Nat := 9223372036854775807

/-- What an `unbounded` MEM_CAP means, 2^63 (R4), and the largest value that a stated MEM_CAP may have. -/
def memCapMax : Nat := 9223372036854775808

/-- What an `unbounded` HEAP_CAP means, MAX (R4), and the largest value that a stated HEAP_CAP may have. -/
def heapCapMax : Nat := 9223372036854775807

/-- The OPEN parameters of R4 and R65: the capacity of each storage of one engine, `none` for `unbounded`.
The spec gives no values, so every statement holds for all of them (log entry 3). -/
structure Capacities where
  /-- STACK_CAP -/
  stack : Option Nat
  /-- MEM_CAP -/
  mem : Option Nat
  /-- HEAP_CAP -/
  heap : Option Nat
deriving DecidableEq, Repr

/-- Free value: the operand stack of the Faulted state that draw `n` belongs to (R260, U1; log entry 4). -/
opaque Config.postFaultStack : Nat → List Word

/-- Free value: the length of the storage (variable memory or heap) that draw `n` belongs to (R260, U1; log entry 4). -/
opaque Config.postFaultLen : Nat → Nat

/-- Free value: the word at an index of the storage that draw `n` belongs to (R260, U1; log entry 4). -/
opaque Config.postFaultWord : Nat → Nat → Word

end Sys2Proof
end

