-- ==== Sys2Proof/Machine/State.lean ====
section
/-! DEFINITION. The state of one engine (10_state.md R20), its reset value (R33), and the reasons a step can stop. Plain data. -/

namespace Sys2Proof.Machine

/-- The run state (R27). Value 3 is never held (U14), so the type has no such value. -/
inductive Status where
  | running
  | halted
  | faulted
deriving DecidableEq, Repr

/-- The 2-bit encoding of R27. -/
def Status.code : Status → BitVec 2
  | .running => 0#2
  | .halted => 1#2
  | .faulted => 2#2

/-- The seven fault classes of R251. -/
inductive FaultClass where
  | stackUnderflow
  | fetchOutOfRange
  | divisionFault
  | overflowFault
  | memoryFault
  | illegalInstruction
  | capacityFault
deriving DecidableEq, Repr

/-- The codes of R251. -/
def FaultClass.code : FaultClass → BitVec 3
  | .stackUnderflow => 1#3
  | .fetchOutOfRange => 2#3
  | .divisionFault => 3#3
  | .overflowFault => 4#3
  | .memoryFault => 5#3
  | .illegalInstruction => 6#3
  | .capacityFault => 7#3

/-- The 3-bit encoding of the register `cause` (R28): 0 where no fault was raised. -/
def causeCode : Option FaultClass → BitVec 3
  | none => 0#3
  | some f => f.code

/-- A zero-filled, growing array of words: variable memory `M` (R29) and the heap `H` (R30).
Indices `0 .. len-1` exist; `cells` lists those that are not 0, in rising order of index (`Memory.wf`; log entry 8). -/
structure Memory where
  len : Nat
  cells : List (Nat × Word)
deriving DecidableEq, Repr

/-- The array as Construct leaves it (R33). -/
def Memory.empty : Memory := { len := 0, cells := [] }

/-- The seven items of R20, and two fields of the model's own: `caps` (the OPEN parameters, log entry 3) and `freeCount`
(log entry 4). -/
structure State where
  /-- `P`, the program store (R31); PLEN is its length -/
  prog : List IWord
  /-- `pc`, an instruction index (R24) -/
  pc : Word
  /-- `S`, the operand stack (R22), top first (log entry 9) -/
  stack : List Word
  /-- `M` and `mlen` (R29) -/
  mem : Memory
  /-- `H` and `hlen` (R30) -/
  heap : Memory
  /-- `status` (R27) -/
  status : Status
  /-- `cause` (R28): `none` is code 0 -/
  cause : Option FaultClass
  /-- the OPEN parameters of R4; the model's own field, never written -/
  caps : Capacities
  /-- how many free values have been drawn; the model's own field -/
  freeCount : Nat
deriving DecidableEq, Repr

/-- `s` with another program counter. -/
def State.setPc (s : State) (t : Word) : State := { s with pc := t }

/-- `s` with another operand stack. -/
def State.setStack (s : State) (l : List Word) : State := { s with stack := l }

/-- `s` with another variable memory. -/
def State.setMem (s : State) (m : Memory) : State := { s with mem := m }

/-- `s` with another heap. -/
def State.setHeap (s : State) (h : Memory) : State := { s with heap := h }

/-- `s` with another run state. -/
def State.setStatus (s : State) (u : Status) : State := { s with status := u }

/-- Why a step has no next state. The seven faults of the spec are NOT here: each is a next state with `status` Faulted
(60_exceptions.md R260). -/
inductive Fault where
  /-- Raised by `step` alone, when `status` is Halted or Faulted: no step is enabled (40_cycle.md R110). Safe: the
  engine is idle and its state does not change (log entry 5). -/
  | notRunning
deriving DecidableEq, Repr

/-- Why an instruction has no meaning in the model. -/
inductive Refusal where
  /-- Raised by an arm of `exec` for an instruction without a meaning. Safe. No arm raises it: all 23 have theirs. -/
  | notModelled (mnemonic : String)
deriving DecidableEq, Repr

/-- The state right after Construct of the empty program (R33, R300): the spec gives every value but those of the model's
own fields `caps` and `freeCount` (DESIGN CHOICE, log entries 3 and 4) and the program, which comes from outside (log entry 7). -/
def State.reset : State :=
  { prog := []
    pc := 0#64
    stack := []
    mem := Memory.empty
    heap := Memory.empty
    status := .running
    cause := none
    caps := { stack := none, mem := none, heap := none }
    freeCount := 0 }

end Sys2Proof.Machine
end

