-- ==== Sys2Proof/Machine/Ops.lean ====
section
/-! DEFINITION. The named operations of the engine: storage, stack and memory primitives (00_scope.md R7, R8; 20_memory.md
R55 to R57), fault entry (60_exceptions.md R260), fetch and advance (40_cycle.md R111, R112). -/

namespace Sys2Proof.Machine

/-- The three outcomes of a step, for this machine. -/
abbrev Result := Host.Outcome State Fault Refusal

/-- An effect that may `raise` one of the seven faults (R9). -/
abbrev Effect (α : Type) := Except FaultClass α

/-! Storage: variable memory and heap. -/

/-- The word listed at index `a`, or 0: an unlisted index of a zero-filled array reads 0 (R29, R30). -/
def getCell : List (Nat × Word) → Nat → Word
  | [], _ => 0#64
  | (b, w) :: rest, a => if a = b then w else getCell rest a

/-- List `v` at index `a`, in order; a cell that becomes 0 leaves the list. -/
def putCell : List (Nat × Word) → Nat → Word → List (Nat × Word)
  | [], a, v => if v = 0#64 then [] else [(a, v)]
  | (b, w) :: rest, a, v =>
    if a < b then (if v = 0#64 then (b, w) :: rest else (a, v) :: (b, w) :: rest)
    else if a = b then (if v = 0#64 then rest else (a, v) :: rest)
    else (b, w) :: putCell rest a v

/-- Indices rise strictly from `lo`, stay below `len`, and no cell is 0. -/
def cellsCanonical (len : Nat) : Nat → List (Nat × Word) → Bool
  | _, [] => true
  | lo, (a, w) :: rest => decide (lo ≤ a) && decide (a < len) && decide (w ≠ 0#64) && cellsCanonical len (a + 1) rest

/-- The canonical form: equal arrays are equal data. -/
def Memory.wf (m : Memory) : Bool := cellsCanonical m.len 0 m.cells

/-- `M[a]` (or `H[a]`) of an index below the length. -/
def Memory.get (m : Memory) (a : Nat) : Word := getCell m.cells a

/-- Growth to at least `n` cells, zero-filled (R29, R30, R56, R57). -/
def Memory.growTo (m : Memory) (n : Nat) : Memory := { m with len := max m.len n }

/-- Growth to `a + 1` cells where needed, then `M[a] <- v` (R56). -/
def Memory.write (m : Memory) (a : Nat) (v : Word) : Memory :=
  { len := max m.len (a + 1), cells := putCell m.cells a v }

/-! Capacities (R4, R65). A stated capacity above what the word width allows counts as that limit (log entry 3). -/

/-- MEM_CAP, where `unbounded` means 2^63. -/
def State.memCap (s : State) : Nat :=
  match s.caps.mem with
  | none => memCapMax
  | some n => min n memCapMax

/-- HEAP_CAP, where `unbounded` means MAX. -/
def State.heapCap (s : State) : Nat :=
  match s.caps.heap with
  | none => heapCapMax
  | some n => min n heapCapMax

/-- `depth = STACK_CAP` (R7, R23); never so when the capacity is unbounded. -/
abbrev State.stackFull (s : State) : Prop := s.caps.stack = some s.stack.length

/-! Stack primitives (R7). -/

/-- `depth` (R7, R22). -/
def State.depth (s : State) : Nat := s.stack.length

/-- need(n): the arity check that opens every instruction rule. -/
def need (n : Nat) (s : State) : Effect Unit :=
  if s.depth < n then .error .stackUnderflow else .ok ()

/-- pop(): the top element, and the state without it. -/
def pop (s : State) : Effect (Word × State) :=
  match s.stack with
  | [] => .error .stackUnderflow
  | a :: rest => .ok (a, s.setStack rest)

/-- top(): the top element, left in place. -/
def top (s : State) : Effect Word :=
  match s.stack with
  | [] => .error .stackUnderflow
  | a :: _ => .ok a

/-- push(v). -/
def push (v : Word) (s : State) : Effect State :=
  if s.stackFull then .error .capacityFault else .ok (s.setStack (v :: s.stack))

/-! Memory primitives (R8). -/

/-- MemRead(addr, 1) of R55. -/
def memRead (addr : Word) (s : State) : Effect Word :=
  if sint addr < 0 then .error .memoryFault
  else if s.mem.len ≤ (sint addr).toNat then .error .memoryFault
  else .ok (s.mem.get (sint addr).toNat)

/-- MemWrite(addr, 1, v) of R56. -/
def memWrite (addr v : Word) (s : State) : Effect State :=
  if sint addr < 0 then .error .memoryFault
  else if s.memCap < (sint addr).toNat + 1 then .error .capacityFault
  else .ok (s.setMem (s.mem.write (sint addr).toNat v))

/-- HeapAlloc(n) of R57: the base (the length before growth), and the state with `n` more zero words. -/
def heapAlloc (n : Word) (s : State) : Effect (Word × State) :=
  if sint n < 0 then .error .memoryFault
  else if s.heapCap < s.heap.len + (sint n).toNat then .error .capacityFault
  else .ok (wordOf s.heap.len, s.setHeap (s.heap.growTo (s.heap.len + (sint n).toNat)))

/-! Fault entry (R9, R260). -/

/-- The cells of a free array: `n` words from index `i` on, drawn as number `k`, the zero ones unlisted. -/
def freeCells (k : Nat) : Nat → Nat → List (Nat × Word)
  | 0, _ => []
  | n + 1, i =>
    if Config.postFaultWord k i = 0#64 then freeCells k n (i + 1)
    else (i, Config.postFaultWord k i) :: freeCells k n (i + 1)

/-- A free array of at most `cap` words (R20's bound holds in every state), drawn as number `k`. -/
def freeMemory (k cap : Nat) : Memory :=
  { len := min (Config.postFaultLen k) cap, cells := freeCells k (min (Config.postFaultLen k) cap) 0 }

/-- A free operand stack within STACK_CAP, drawn as number `k`. -/
def freeStack (k : Nat) (cap : Option Nat) : List Word :=
  match cap with
  | none => Config.postFaultStack k
  | some n => (Config.postFaultStack k).take n

/-- raise F of R260: `status` and `cause` are written, `pc` keeps its value, and the contents of `S`, `M`, `mlen`, `H` and
`hlen` are unspecified (U1), hence free (log entry 4). There is no return from a fault (R261). -/
def State.raise (f : FaultClass) (s : State) : State :=
  { s with
    status := .faulted
    cause := some f
    stack := freeStack s.freeCount s.caps.stack
    mem := freeMemory s.freeCount s.memCap
    heap := freeMemory (s.freeCount + 1) s.heapCap
    freeCount := s.freeCount + 2 }

/-- The end of the execute part: the effect's state, or fault entry from the state `s` at the `raise` (R9, R117). -/
def settle (s : State) : Effect State → Result
  | .ok t => .next t
  | .error f => .next (s.raise f)

/-! The step's own parts (R111, R112) and the engine at rest (R110). -/

/-- The program counter is the index of a word of the program (R24, R111). -/
abbrev State.pcInRange (s : State) : Prop := 0 ≤ sint s.pc ∧ sint s.pc < s.prog.length

/-- Fetch (R111): the word at `pc`, or `none` where the fetch raises FetchOutOfRange. -/
def fetch (s : State) : Option IWord :=
  if s.pcInRange then s.prog[(sint s.pc).toNat]? else none

/-- Advance (R112). -/
def advance (s : State) : State := s.setPc (s.pc + 1#64)

/-- What a step answers when none is enabled (R110; log entry 5). -/
def idle : Result := .fault .notRunning

/-! Placing a word for the fetch (used by `State.withFetchWord`, which stands for the host's Construct, R300). -/

/-- `p` with `iw` at index `n`, lengthened with zero words where `n` lies past its end. -/
def placeWord : List IWord → Nat → IWord → List IWord
  | [], 0, iw => [iw]
  | [], n + 1, iw => 0#72 :: placeWord [] n iw
  | _ :: rest, 0, iw => iw :: rest
  | x :: rest, n + 1, iw => x :: placeWord rest n iw

/-- `s` made ready to fetch `iw` in its next step: running, with `iw` at the index `pc` names; a `pc` that is no index of
any program (negative, or MAX, since PLEN ≤ MAX) is set to 0 (log entry 7). -/
def placeFetchWord (s : State) (iw : IWord) : State :=
  if 0 ≤ sint s.pc ∧ sint s.pc < plenMax then
    { s with prog := placeWord s.prog (sint s.pc).toNat iw, status := .running, cause := none }
  else
    { s with prog := placeWord s.prog 0 iw, pc := 0#64, status := .running, cause := none }

end Sys2Proof.Machine
end

