-- ==== Sys2Proof/Machine/Operands.lean ====
section
/-! DEFINITION. The operand forms (every operand is an immediate or a stack element, 10_state.md R21), and the exact
arithmetic of 44_arithmetic.md R180, R181, R185. -/

namespace Sys2Proof.Machine

/-- R181: an exact result is delivered as a word if it fits, otherwise OverflowFault; never wrapped or saturated. -/
def narrow (r : Int) : Effect Word :=
  if fitsWord r then .ok (wordOf r) else .error .overflowFault

/-- trunc(b / a) of R185: the quotient rounded toward zero. -/
def truncQuotient (b a : Int) : Int := b.tdiv a

/-- The checks that open `div` and `mod` (R186, R187): a zero divisor, then the one quotient that does not fit. -/
def checkDivision (b a : Int) : Effect Unit :=
  if a = 0 then .error .divisionFault
  else if b = wordMin ∧ a = -1 then .error .overflowFault
  else .ok ()

/-- The form of the binary instructions (R180): `a` is popped first and `b` second, and `f b a` is pushed. -/
def binary (f : Word → Word → Effect Word) (s : State) : Effect State := do
  need 2 s
  let (a, s₁) ← pop s
  let (b, s₂) ← pop s₁
  let r ← f b a
  push r s₂

/-- The form of `neg` and `not`: `a` is popped and `f a` is pushed (R188, R213). -/
def unary (f : Word → Effect Word) (s : State) : Effect State := do
  need 1 s
  let (a, s₁) ← pop s
  let r ← f a
  push r s₁

end Sys2Proof.Machine
end

