-- ==== Sys2Proof/Machine/Arithmetic.lean ====
section
/-! DEFINITION. Integer arithmetic (44_arithmetic.md R180 to R188). -/

namespace Sys2Proof.Machine

/-- `add` (R182). -/
def execAdd (s : State) : Result := settle s (binary (fun b a => narrow (sint b + sint a)) s)

/-- `sub` (R183). -/
def execSub (s : State) : Result := settle s (binary (fun b a => narrow (sint b - sint a)) s)

/-- `mul` (R184). -/
def execMul (s : State) : Result := settle s (binary (fun b a => narrow (sint b * sint a)) s)

/-- The word `div` pushes, or its fault (R186). -/
def divWords (b a : Word) : Effect Word := do
  checkDivision (sint b) (sint a)
  .ok (wordOf (truncQuotient (sint b) (sint a)))

/-- `div` (R186). -/
def execDiv (s : State) : Result := settle s (binary divWords s)

/-- The word `mod` pushes, or its fault (R187). -/
def modWords (b a : Word) : Effect Word := do
  checkDivision (sint b) (sint a)
  .ok (wordOf (sint b - sint a * truncQuotient (sint b) (sint a)))

/-- `mod` (R187). -/
def execMod (s : State) : Result := settle s (binary modWords s)

/-- The word `neg` pushes, or its fault (R188). -/
def negWord (a : Word) : Effect Word :=
  if sint a = wordMin then .error .overflowFault else .ok (wordOf (-(sint a)))

/-- `neg` (R188). -/
def execNeg (s : State) : Result := settle s (unary negWord s)

end Sys2Proof.Machine
end

