-- ==== Sys2Proof/Machine/Flags.lean ====
section
/-! DEFINITION. The engine has no flags (10_state.md R26): a comparison or a logical instruction delivers its outcome as the
word 1 or 0. These are the rules that compute that outcome. -/

namespace Sys2Proof.Machine

/-- The word 1 for true, the word 0 for false (R210, R230). -/
def boolWord (p : Bool) : Word := if p then 1#64 else 0#64

/-- truth(x) of R210: true exactly when the word is 1. Not the conventional `x ≠ 0`. -/
def truth (x : Word) : Bool := decide (x = 1#64)

/-- The zero test of `jz`: exact equality with the word 0 (R161). -/
def isZero (x : Word) : Bool := decide (x = 0#64)

/-- The outcome of a signed comparison of the left operand `b` with the right operand `a` (R230). -/
def compareWords (rel : Int → Int → Bool) (b a : Word) : Word := boolWord (rel (sint b) (sint a))

end Sys2Proof.Machine
end

