-- ==== Sys2Proof/Machine/Compare.lean ====
section
/-! DEFINITION. The comparison instructions (46_compare.md R230 to R236): signed, `b rel a`. -/

namespace Sys2Proof.Machine

/-- `eq` (R231). -/
def execEq (s : State) : Result :=
  settle s (binary (fun b a => .ok (compareWords (fun x y => decide (x = y)) b a)) s)

/-- `ne` (R232). -/
def execNe (s : State) : Result :=
  settle s (binary (fun b a => .ok (compareWords (fun x y => decide (x ≠ y)) b a)) s)

/-- `lt` (R233). -/
def execLt (s : State) : Result :=
  settle s (binary (fun b a => .ok (compareWords (fun x y => decide (x < y)) b a)) s)

/-- `le` (R234). -/
def execLe (s : State) : Result :=
  settle s (binary (fun b a => .ok (compareWords (fun x y => decide (x ≤ y)) b a)) s)

/-- `gt` (R235). -/
def execGt (s : State) : Result :=
  settle s (binary (fun b a => .ok (compareWords (fun x y => decide (y < x)) b a)) s)

/-- `ge` (R236). -/
def execGe (s : State) : Result :=
  settle s (binary (fun b a => .ok (compareWords (fun x y => decide (y ≤ x)) b a)) s)

end Sys2Proof.Machine
end

