-- ==== Sys2Proof/Machine/Control.lean ====
section
/-! DEFINITION. The control instructions (43_control.md R160, R161, R162). A target is not checked here (R160): the next
fetch checks it. -/

namespace Sys2Proof.Machine

/-- `jmp t` (R160). -/
def execJmp (t : Word) (s : State) : Result := .next (s.setPc t)

/-- `jz t` (R161): the popped value is consumed whether or not the jump is taken. -/
def execJz (t : Word) (s : State) : Result := settle s do
  need 1 s
  let (v, s₁) ← pop s
  if isZero v then .ok (s₁.setPc t) else .ok s₁

/-- `halt` (R162). -/
def execHalt (s : State) : Result := .next (s.setStatus .halted)

end Sys2Proof.Machine
end

