-- ==== Sys2Proof/Machine/Logic.lean ====
section
/-! DEFINITION. The logical instructions (45_logic.md R210 to R213): not bitwise, no short-circuit. -/

namespace Sys2Proof.Machine

/-- `and` (R211). -/
def execAnd (s : State) : Result := settle s (binary (fun b a => .ok (boolWord (truth b && truth a))) s)

/-- `or` (R212). -/
def execOr (s : State) : Result := settle s (binary (fun b a => .ok (boolWord (truth b || truth a))) s)

/-- `not` (R213). -/
def execNot (s : State) : Result := settle s (unary (fun a => .ok (boolWord (!truth a))) s)

end Sys2Proof.Machine
end

