-- ==== Sys2Proof/Machine/MemoryOps.lean ====
section
/-! DEFINITION. The memory instructions (42_memory_ops.md R140, R141, R142). -/

namespace Sys2Proof.Machine

/-- `load` (R140): variable memory, never the heap. -/
def execLoad (s : State) : Result := settle s do
  need 1 s
  let (addr, s₁) ← pop s
  let v ← memRead addr s₁
  push v s₁

/-- `store` (R141): the address is popped, the value under it is read and kept. -/
def execStore (s : State) : Result := settle s do
  need 2 s
  let (addr, s₁) ← pop s
  let v ← top s₁
  memWrite addr v s₁

/-- `alloc` (R142). -/
def execAlloc (s : State) : Result := settle s do
  need 1 s
  let (n, s₁) ← pop s
  let (base, s₂) ← heapAlloc n s₁
  push base s₂

end Sys2Proof.Machine
end

