-- ==== Sys2Proof/Machine/Stack.lean ====
section
/-! DEFINITION. The stack instructions (41_stack.md R130, R131). In every meaning `s` is the state after the advance. -/

namespace Sys2Proof.Machine

/-- `ldc k` (R130). -/
def execLdc (k : Word) (s : State) : Result := settle s (push k s)

/-- `pop` (R131). -/
def execPop (s : State) : Result := settle s do
  need 1 s
  let (_, s₁) ← pop s
  .ok s₁

end Sys2Proof.Machine
end

