-- ==== Sys2Proof/Machine/Step.lean ====
section
/-! DEFINITION. The fetch, advance, execute step (40_cycle.md R110 to R114, R117). -/

namespace Sys2Proof.Machine

/-- One step, enabled exactly when `status` is Running (R110). -/
def step (s : State) : Host.Outcome State Fault Refusal :=
  match s.status with
  | .running =>
    match fetch s with
    | none => .next (s.raise .fetchOutOfRange)
    | some iw =>
      match decode iw with
      | .error _ => .next ((advance s).raise .illegalInstruction)
      | .ok i => exec i (advance s)
  | .halted => idle
  | .faulted => idle

/-- `s` with the table word `w` where the next step fetches (log entry 7). -/
def State.withFetchWord (s : State) (nbits w : Nat) : State := placeFetchWord s (tableWord nbits w)

end Sys2Proof.Machine
end

