-- ==== Sys2Proof/Machine/Assembly.lean ====
section
/-! DEFINITION. The assembly notation of 30_encoding.md R90, in which the spec writes its examples. Lines are lists of
characters. Every error yields no word (R90). The white space is the model's choice (log entry 11). -/

namespace Sys2Proof.Machine

/-- The mnemonics of the format N instructions (R84). -/
def mnemonicsN : List (List Char × Instr) :=
  [(['l', 'o', 'a', 'd'], .load), (['s', 't', 'o', 'r', 'e'], .store), (['p', 'o', 'p'], .pop),
   (['a', 'l', 'l', 'o', 'c'], .alloc), (['h', 'a', 'l', 't'], .halt), (['a', 'd', 'd'], .add),
   (['s', 'u', 'b'], .sub), (['m', 'u', 'l'], .mul), (['d', 'i', 'v'], .div), (['m', 'o', 'd'], .mod),
   (['a', 'n', 'd'], .and), (['o', 'r'], .or), (['e', 'q'], .eq), (['n', 'e'], .ne), (['l', 't'], .lt),
   (['l', 'e'], .le), (['g', 't'], .gt), (['g', 'e'], .ge), (['n', 'e', 'g'], .neg), (['n', 'o', 't'], .not)]

/-- The mnemonics of the format I instructions (R84). -/
def mnemonicsI : List (List Char × (Word → Instr)) :=
  [(['l', 'd', 'c'], .ldc), (['j', 'm', 'p'], .jmp), (['j', 'z'], .jz)]

/-- The value of a decimal digit. -/
def digitValue (c : Char) : Option Nat :=
  if 48 ≤ c.toNat ∧ c.toNat ≤ 57 then some (c.toNat - 48) else none

/-- The value of the digits read after `acc`; `none` at a character that is no digit. -/
def digitsValue : Nat → List Char → Option Nat
  | acc, [] => some acc
  | acc, c :: rest =>
    match digitValue c with
    | some d => digitsValue (10 * acc + d) rest
    | none => none

/-- A decimal number: at least one digit. -/
def decimal : List Char → Option Nat
  | [] => none
  | c :: rest => digitsValue 0 (c :: rest)

/-- An optionally signed decimal integer (R90). -/
def signedDecimal : List Char → Option Int
  | '-' :: rest =>
    match decimal rest with
    | some n => some (-(Int.ofNat n))
    | none => none
  | '+' :: rest =>
    match decimal rest with
    | some n => some (Int.ofNat n)
    | none => none
  | other =>
    match decimal other with
    | some n => some (Int.ofNat n)
    | none => none

/-- The operand of a line: a signed decimal in MIN .. MAX (R90). -/
def operand (cs : List Char) : Option Word :=
  match signedDecimal cs with
  | some v => if fitsWord v then some (wordOf v) else none
  | none => none

/-- The mnemonic, with an operand exactly where its format has one (R90). -/
def assembleTokens : List (List Char) → Option Instr
  | [m] => mnemonicsN.lookup m
  | [m, k] =>
    match mnemonicsI.lookup m, operand k with
    | some f, some w => some (f w)
    | _, _ => none
  | _ => none

/-- The line without its comment, which a `;` starts (R90). -/
def withoutComment (cs : List Char) : List Char := cs.takeWhile fun c => !(c == ';')

/-- The tokens of a line, cut at blanks and tabs; `word` holds the characters of the token being read. -/
def tokens : List Char → List Char → List (List Char)
  | word, [] => if word.isEmpty then [] else [word]
  | word, c :: rest =>
    if c == ' ' || c == '\t' then
      if word.isEmpty then tokens [] rest else word :: tokens [] rest
    else tokens (word ++ [c]) rest

/-- The number of an index label `<n>:` (R90). -/
def labelNumber (tok : List Char) : Option Nat :=
  match tok.reverse with
  | ':' :: digits => decimal digits.reverse
  | _ => none

/-- The instruction of the line at index `n`: an optional label equal to the index, then mnemonic and operand (R90). -/
def assembleLine (n : Nat) (cs : List Char) : Option Instr :=
  match tokens [] (withoutComment cs) with
  | [] => none
  | t :: rest =>
    match labelNumber t with
    | some m => if m = n then assembleTokens rest else none
    | none => assembleTokens (t :: rest)

/-- The words of the lines from index `n` on; `none` if a line is in error (R90). -/
def assembleFrom : Nat → List (List Char) → Option (List IWord)
  | _, [] => some []
  | n, line :: rest =>
    match assembleLine n line, assembleFrom (n + 1) rest with
    | some i, some p => some (encode i :: p)
    | _, _ => none

/-- A program text, one instruction per line, assembled in line order to indices 0, 1, 2, ... (R90). -/
def assemble (lines : List (List Char)) : Option (List IWord) := assembleFrom 0 lines

end Sys2Proof.Machine
end

