-- ==== Sys2Proof/Machine/Transactions.lean ====
section
/-! DEFINITION. The host's three transactions, Construct, Run and Inspect (70_reset_and_hazards.md R300, R303, R304), and
several engines side by side (10_state.md R34). The host has no other move (R307). -/

namespace Sys2Proof.Machine

/-- Construct(prog) of R300, applied in any state: `none` where its `require` fails, since R300 gives no effect then.
The engine keeps its capacities, which are the hardware's, and its count of free values (log entry 10). -/
def construct (prog : List IWord) (s : State) : Option State :=
  if prog.length ≤ plenMax then
    some { s with
      prog := prog
      pc := 0#64
      stack := []
      mem := Memory.empty
      heap := Memory.empty
      status := .running
      cause := none }
  else none

/-- Construct from a program image (R89); an image that is no program is refused. -/
def constructImage (image : List Byte) (s : State) : Option State :=
  match imageProgram image with
  | some p => construct p s
  | none => none

/-- The state after `n` steps from `s`; `none` where one of them has no next state. -/
def after : Nat → State → Option State
  | 0, s => some s
  | n + 1, s =>
    match step s with
    | .next t => after n t
    | .fault _ => none
    | .refused _ => none

/-- The loop of R115, for at most `fuel` steps: the first state whose `status` is not Running, or `none` where the run has
not ended by then. The fuel is the runner's, not the hardware's (R116). -/
def runFor : Nat → State → Option State
  | 0, s => if s.status = .running then none else some s
  | n + 1, s =>
    if s.status = .running then
      match step s with
      | .next t => runFor n t
      | .fault _ => none
      | .refused _ => none
    else some s

/-- What Run returns (R303): the codes of `status` and `cause`. -/
def runResult (s : State) : BitVec 2 × BitVec 3 := (s.status.code, causeCode s.cause)

/-- Run ends within `fuel` steps and returns this pair (R303). -/
def run (fuel : Nat) (s : State) : Option (BitVec 2 × BitVec 3) := (runFor fuel s).map runResult

/-- What Inspect shows (R304). In a Faulted state only `status`, `cause` and `pc` are specified. -/
structure Inspection where
  status : BitVec 2
  cause : BitVec 3
  pc : Word
  /-- the operand stack, bottom first; its length is `depth` -/
  stack : List Word
  /-- variable memory; its length is `mlen` -/
  mem : Memory
  hlen : Nat
deriving DecidableEq, Repr

/-- Inspect (R304): nothing is readable while the engine runs (R307). It changes no state. -/
def inspect (s : State) : Option Inspection :=
  match s.status with
  | .running => none
  | .halted | .faulted =>
    some { status := s.status.code, cause := causeCode s.cause, pc := s.pc, stack := s.stack.reverse, mem := s.mem, hlen := s.heap.len }

/-- A word of variable memory as Inspect shows it: `none` at or past `mlen` (R304). -/
def Inspection.memWord (v : Inspection) (a : Nat) : Option Word :=
  if a < v.mem.len then some (v.mem.get a) else none

/-- Several engines are a product of independent states (R34, R267): engine `k` takes a step, the others keep their state.
`none` where there is no engine `k` or it has no next state. -/
def stepEngine : Nat → List State → Option (List State)
  | _, [] => none
  | 0, s :: rest =>
    match step s with
    | .next t => some (t :: rest)
    | .fault _ => none
    | .refused _ => none
  | k + 1, s :: rest => (stepEngine k rest).map (s :: ·)

end Sys2Proof.Machine
end

