-- ==== Sys2Proof/WellFormed.lean ====
section
/-! DEFINITION. What a well-formed program is, as far as it can be read off the program (70_reset_and_hazards.md R302). Every
instruction of the type `Instr` is well-formed by itself: the type gives each its immediate or none (R93), and the immediate is
a whole word (R83). Construct checks none of this but the length (R300, R302). -/

namespace Sys2Proof

/-- A jump target is an index of the program: in `0 .. PLEN-1`, read as signed (R302, R111). -/
def targetInRange (plen : Nat) (t : Word) : Bool :=
  decide (0 ≤ sint t) && decide (sint t < plen)

/-- The instruction is well-formed in a program of length `plen`: a target it carries is in range (R302). -/
def Instr.wellFormedIn (plen : Nat) (i : Instr) : Bool :=
  match i.target with
  | some t => targetInRange plen t
  | none => true

/-- The length that Construct requires (R300, R4). -/
def lengthAllowed (plen : Nat) : Bool :=
  decide (plen ≤ plenMax)

/-- The index a target names: none where it is negative. -/
def targetIndices (t : Word) : List Nat := if 0 ≤ sint t then [(sint t).toNat] else []

/-- Where control may be after the instruction at index `i`: its target, and the next index unless it never falls through
(R112, R160, R161, R162). -/
def Instr.successors (i : Nat) (x : Instr) : List Nat :=
  (match x.target with
   | some t => targetIndices t
   | none => []) ++
  (if x.endsPath then [] else [i + 1])

/-- One edge of a path: the program has an instruction at `i`, and `j` is one of its successors. -/
def Flow (p : List Instr) (i j : Nat) : Prop := ∃ x, p[i]? = some x ∧ j ∈ x.successors i

/-- A path of any length from index `i` to index `j`. -/
abbrev Path (p : List Instr) : Nat → Nat → Prop := Relation.ReflTransGen (Flow p)

/-- A `halt` on every path (R302): wherever a path from index 0 has come to, it leads on to a `halt`. So no path runs past the
end, and none is caught in a loop without an exit (`jmp 0` alone is refused). DEDUCED, log entry 12. -/
def HaltOnEveryPath (p : List Instr) : Prop :=
  ∀ i, Path p 0 i → ∃ j, Path p i j ∧ p[j]? = some .halt

/-- A well-formed program (R302), as a property of its text. What R302 says of operands is a property of the run:
`State.noNegativeOperands` in Safety.lean. -/
structure ProgramWellFormed (p : List Instr) : Prop where
  length_allowed : lengthAllowed p.length = true
  targets_in_range : p.all (Instr.wellFormedIn p.length) = true
  halt_on_every_path : HaltOnEveryPath p

end Sys2Proof
end

