-- ==== Sys2Proof/Safety.lean ====
section
/-! DEFINITION. What claims are stated in: what fault entry specifies, what a sound state is, what a safe run is. -/

namespace Sys2Proof.Machine

/-- `t` is a state that raising `f` from `s` may leave, as far as the spec specifies one (R260): `status`, `cause` and
`pc`; the program store is immutable (R31) and the capacities are the hardware's. Nothing is said of `S`, `M` and `H` (U1). -/
structure EntersFault (f : FaultClass) (s t : State) : Prop where
  status_faulted : t.status = .faulted
  cause_is : t.cause = some f
  pc_kept : t.pc = s.pc
  prog_kept : t.prog = s.prog
  caps_kept : t.caps = s.caps

/-- The outcome is fault entry for `f` from the state `s` at the `raise` (R9, R260). -/
def Raises (f : FaultClass) (s : State) (o : Result) : Prop := ∃ t, o = .next t ∧ EntersFault f s t

/-- `depth ≤ STACK_CAP` (R20, R23). -/
def State.stackWithinCap (s : State) : Prop := ∀ n, s.caps.stack = some n → s.depth ≤ n

/-- The bounds and relations that R20, R28 and R29 to R31 give every state of an engine, and the canonical form of the
model's own data. -/
structure State.Sound (s : State) : Prop where
  prog_length : s.prog.length ≤ plenMax
  stack_within : s.stackWithinCap
  mem_wf : s.mem.wf = true
  mem_within : s.mem.len ≤ s.memCap
  heap_wf : s.heap.wf = true
  heap_within : s.heap.len ≤ s.heapCap
  cause_iff : s.cause.isSome = true ↔ s.status = .faulted

/-- Every heap word is 0 (R30); nothing is said of a Faulted state, whose heap is unspecified (R260). -/
def State.heapZero (s : State) : Prop := s.status ≠ .faulted → ∀ a, s.heap.get a = 0

/-- What counts as safe: no fault was raised. A run is safe when every state of it is. -/
def State.safe (s : State) : Prop := s.status ≠ .faulted

/-- The instructions of a program whose every word is legal (R88, R302); `none` if one is not. -/
def decodeProgram : List IWord → Option (List Instr)
  | [] => some []
  | iw :: rest =>
    match decode iw, decodeProgram rest with
    | .ok i, some p => some (i :: p)
    | _, _ => none

/-- The engine is Running and its next step executes the instruction `i`. -/
def State.executes (s : State) (i : Instr) : Prop :=
  s.status = .running ∧ ∃ iw, fetch s = some iw ∧ decode iw = .ok i

/-- The next step uses a negative address or length: class 5 "for negative operands" of R302 (R256). -/
def State.usesNegativeOperand (s : State) : Prop :=
  ∃ i a rest, s.executes i ∧ i.readsIndex = true ∧ i.needs ≤ s.depth ∧ s.stack = a :: rest ∧ sint a < 0

/-- The next step loads at or past `mlen` (R55, R256), which R302 leaves to the program. -/
def State.loadsPastTheEnd (s : State) : Prop :=
  ∃ addr rest, s.executes .load ∧ s.stack = addr :: rest ∧ (s.mem.len : Int) ≤ sint addr

/-- No step of the run from `s` uses a negative operand: what R302 asks of a well-formed program beyond its text. -/
def State.noNegativeOperands (s : State) : Prop := ∀ n t, after n s = some t → ¬t.usesNegativeOperand

/-- The program store holds the program `p`, and `p` is well-formed (R302). -/
def State.holdsWellFormed (s : State) (p : List Instr) : Prop :=
  decodeProgram s.prog = some p ∧ ProgramWellFormed p

/-- Control is inside a well-formed program: a Running engine stands at an index that a path of the program comes to. -/
def State.Contained (s : State) : Prop :=
  ∃ p, s.holdsWellFormed p ∧ (s.status = .running → ∃ i : Nat, sint s.pc = i ∧ Path p 0 i)

/-- R302's well-formed program, constructed and ready to run: both what its text shows and what its run must keep to. -/
structure State.RunsWellFormed (s : State) : Prop where
  text : ∃ p, s.holdsWellFormed p
  operands : s.noNegativeOperands

end Sys2Proof.Machine
end

