-- ==== Sys2Proof/Certificates/Slice0/Obligations.lean ====
section
/-! DEFINITION. The statements for the provers. Each docstring names the rule of the spec it formalises. In the statements
about one instruction `s` is the state after the advance (40_cycle.md R112): `exec i s` is the execute part of a step. -/

open Sys2Proof Sys2Proof.Machine

/-! Reset, Construct, Run, Inspect. -/

/-- R33: after Construct the program is the sequence given, `pc` is 0, the stack, variable memory and heap are empty,
`status` is Running and `cause` is 0, whatever state Construct was applied in. -/
def Obligations.ConstructLeavesResetValues : Prop :=
  ∀ (s : State) (prog : List IWord), prog.length ≤ plenMax →
    ∃ t, construct prog s = some t ∧ t.prog = prog ∧ t.pc = 0#64 ∧ t.stack = [] ∧ t.depth = 0 ∧
      t.mem.len = 0 ∧ t.heap.len = 0 ∧ t.status = .running ∧ t.status.code = 0#2 ∧ t.cause = none ∧ causeCode t.cause = 0#3

/-- R300, R33: nothing of the earlier state survives Construct (two states of engines with the same capacities give the
same seven items), no word is validated, and a program longer than PLEN_MAX is not taken (the model's reading of
`require`, log entry 10). -/
def Obligations.ConstructForgetsTheEarlierState : Prop :=
  (∀ (s u t v : State) (prog : List IWord), s.caps = u.caps → construct prog s = some t → construct prog u = some v →
    { t with freeCount := v.freeCount } = v) ∧
  (∀ (s : State) (prog : List IWord), (construct prog s).isSome = true ↔ prog.length ≤ 9223372036854775807)

/-- R303, R115: Run returns (Halted, 0) or (Faulted, c) with c in 1 .. 7, for a run that starts Running with no fault recorded;
applied in a terminal state it takes no step and returns that state's pair. -/
def Obligations.RunReturnsSuccessOrTypedFailure : Prop :=
  (∀ (s : State) (n : Nat) (u : BitVec 2) (c : BitVec 3), s.status = .running → s.cause = none →
    run n s = some (u, c) → (u = 1#2 ∧ c = 0#3) ∨ (u = 2#2 ∧ 1 ≤ c.toNat ∧ c.toNat ≤ 7)) ∧
  (∀ (s : State) (n : Nat), s.status ≠ .running → runFor n s = some s ∧ run n s = some (s.status.code, causeCode s.cause))

/-- R115, R116: a run stops at the first state whose `status` is not Running, and nowhere else: by `n` steps it has ended in `t`
exactly when `t` is the state after some `k ≤ n` steps, is not Running, and every state before it is Running. So a run has one end
state, whatever the fuel; the fuel is the runner's, not the hardware's (DESIGN CHOICE, log entry 15). -/
def Obligations.RunStopsAtTheFirstStateNotRunning : Prop :=
  ∀ (n : Nat) (s t : State), runFor n s = some t ↔
    ∃ k, k ≤ n ∧ after k s = some t ∧ t.status ≠ .running ∧ ∀ j, j < k → ∃ u, after j s = some u ∧ u.status = .running

/-- R116, R160: an engine that stands at a `jmp` to its own index never ends its run. -/
def Obligations.JumpToItselfNeverEnds : Prop :=
  ∀ (s : State) (iw : IWord), s.status = .running → s.pcInRange → s.prog[(sint s.pc).toNat]? = some iw →
    decode iw = .ok (.jmp s.pc) → step s = .next s ∧ ∀ n, runFor n s = none

/-- R304: Inspect of an engine at rest shows `status`, `cause`, `pc`, the stack bottom first, the words of variable memory below
`mlen`, and `hlen`. That it shows nothing of a running engine is DEDUCED from R307, log entry 17. -/
def Obligations.InspectShowsTheEndState : Prop :=
  (∀ s : State, s.status = .running → inspect s = none) ∧
  (∀ s : State, s.status ≠ .running → ∃ v, inspect s = some v ∧ v.status = s.status.code ∧ v.cause = causeCode s.cause ∧
    v.pc = s.pc ∧ v.stack.length = s.depth ∧ (∀ k, k < s.depth → v.stack[k]? = s.stack[s.depth - 1 - k]?) ∧
    v.mem.len = s.mem.len ∧ (∀ a, a < s.mem.len → v.memWord a = some (s.mem.get a)) ∧
    (∀ a, s.mem.len ≤ a → v.memWord a = none) ∧ v.hlen = s.heap.len)

/-- R34: engines share nothing: a step of one leaves every other as it was. -/
def Obligations.EnginesShareNothing : Prop :=
  ∀ (k : Nat) (es fs : List State), stepEngine k es = some fs →
    fs.length = es.length ∧ (∀ j, j ≠ k → fs[j]? = es[j]?) ∧
      ∃ s t, es[k]? = some s ∧ step s = .next t ∧ fs[k]? = some t

/-! Encoding. -/

/-- R84, R88 on words of 95_test_vectors.md 2.1 and of each family. -/
def Obligations.DecoderReadsTheSpecWords : Prop :=
  decode 0x000000000000000700 = .ok (.ldc 7) ∧ decode 0xFFFFFFFFFFFFFFFF00 = .ok (.ldc (-1)) ∧
  decode 0x000000000000000001 = .ok .load ∧ decode 0x000000000000001B06 = .ok (.jz 27) ∧
  decode 0x00000000000000000B = .ok .div ∧ decode 0x00000000000000000E = .ok .or ∧
  decode 0x000000000000000014 = .ok .ge ∧ decode 0x000000000000000016 = .ok .not ∧
  decode 0x000000000000000017 = .error (.undefinedOpcode 0x17) ∧
  decode 0x000000000000000107 = .error (.reservedImmediate 0x07)

/-- R88: `encode` is an inverse of `decode`: every instruction, with every immediate, decodes from its own word. -/
def Obligations.DecodeOfEncode : Prop := ∀ i : Instr, decode (encode i) = .ok i

/-- R88: `decode` is injective on the words it does not call illegal: a legal word is the word of what it decodes to. -/
def Obligations.EncodeOfDecode : Prop := ∀ (iw : IWord) (i : Instr), decode iw = .ok i → encode i = iw

/-- R85, R86, R257: a word is illegal exactly when `op` is above 0x16, or when `op` is a format N opcode and the `imm` field
is not all zeros; executing an illegal word raises IllegalInstruction. -/
def Obligations.IllegalWordsRaiseIllegalInstruction : Prop :=
  ∀ (s : State) (iw : IWord), s.status = .running → s.pcInRange → s.prog[(sint s.pc).toNat]? = some iw →
    ((∃ r, decode iw = .error r) ↔
      (iw.toNat % 256 > 0x16 ∨
        (iw.toNat % 256 ≠ 0x00 ∧ iw.toNat % 256 ≠ 0x05 ∧ iw.toNat % 256 ≠ 0x06 ∧ iw.toNat / 256 ≠ 0))) ∧
    ((∃ r, decode iw = .error r) → Raises .illegalInstruction (s.setPc (s.pc + 1#64)) (step s))

/-- R89: byte `k` of the 9 bytes of an instruction word, and of the 8 bytes of a data word, is the `k`-th least significant;
a program image is the bytes of the words in index order and nothing else. -/
def Obligations.BytesAreLittleEndian : Prop :=
  (∀ iw : IWord, (toBytes iw).length = 9 ∧
    ∀ k, k < 9 → (toBytes iw)[k]? = some (BitVec.ofNat 8 (iw.toNat / 256 ^ k))) ∧
  (∀ w : Word, (dataBytes w).length = 8 ∧
    ∀ k, k < 8 → (dataBytes w)[k]? = some (BitVec.ofNat 8 (w.toNat / 256 ^ k))) ∧
  (∀ p : List IWord, programImage p = p.flatMap toBytes)

/-- R89, R300: a program comes back from its image, and the engine constructed from the image is the engine constructed from
the program. -/
def Obligations.ImageGivesTheProgramBack : Prop :=
  ∀ (p : List IWord) (s : State), imageProgram (programImage p) = some p ∧
    constructImage (programImage p) s = construct p s

/-- R90: a format N mnemonic of R84 alone gives its instruction, and with an operand none; a format I mnemonic with a signed decimal in
MIN .. MAX gives its instruction with that immediate, and without an operand, with one that is no signed decimal, or with one outside
MIN .. MAX none. A signed decimal is digits, most significant first, after an optional sign (`+` is the model's reading, log
entry 11). -/
def Obligations.AssemblyTakesTheOperandOfTheFormat : Prop :=
  (∀ (m : String) (i : Instr),
    (m, i) ∈ [("load", Instr.load), ("store", .store), ("pop", .pop), ("alloc", .alloc), ("halt", .halt), ("add", .add),
      ("sub", .sub), ("mul", .mul), ("div", .div), ("mod", .mod), ("and", .and), ("or", .or), ("eq", .eq), ("ne", .ne),
      ("lt", .lt), ("le", .le), ("gt", .gt), ("ge", .ge), ("neg", .neg), ("not", .not)] →
    assembleTokens [m.toList] = some i ∧ ∀ k, assembleTokens [m.toList, k] = none) ∧
  (∀ (m : String) (f : Word → Instr), (m, f) ∈ [("ldc", Instr.ldc), ("jmp", .jmp), ("jz", .jz)] →
    assembleTokens [m.toList] = none ∧
    ∀ k, (∀ v, signedDecimal k = some v → fitsWord v →
        ∃ w, sint w = v ∧ assembleTokens [m.toList, k] = some (f w)) ∧
      (∀ v, signedDecimal k = some v → ¬fitsWord v → assembleTokens [m.toList, k] = none) ∧
      (signedDecimal k = none → assembleTokens [m.toList, k] = none)) ∧
  (∀ ds : List Nat, ds ≠ [] → (∀ d, d ∈ ds → d < 10) →
    signedDecimal (ds.map Nat.digitChar) = some (Int.ofNat (ds.foldl (fun n d => 10 * n + d) 0)) ∧
    signedDecimal ('+' :: ds.map Nat.digitChar) = some (Int.ofNat (ds.foldl (fun n d => 10 * n + d) 0)) ∧
    signedDecimal ('-' :: ds.map Nat.digitChar) = some (-Int.ofNat (ds.foldl (fun n d => 10 * n + d) 0)))

/-! The step. -/

/-- R112, R113: where a word is fetched, `pc` is advanced by 1 and the decoded instruction is executed; a word that decodes to
none raises IllegalInstruction with `pc` advanced. -/
def Obligations.StepRunsTheDecodedInstruction : Prop :=
  ∀ (s : State) (iw : IWord), s.status = .running → s.pcInRange → s.prog[(sint s.pc).toNat]? = some iw →
    (∀ i, decode iw = .ok i → step s = exec i (s.setPc (s.pc + 1#64))) ∧
    (∀ r, decode iw = .error r → Raises .illegalInstruction (s.setPc (s.pc + 1#64)) (step s))

/-- R111, R253: the fetch reads the word at `pc` exactly when `pc`, read as signed, is in `0 .. PLEN-1`; otherwise the step
raises FetchOutOfRange and `pc` is left as it is. -/
def Obligations.FetchIsBoundChecked : Prop :=
  (∀ s : State, 0 ≤ sint s.pc → sint s.pc < s.prog.length →
    ∃ iw, s.prog[(sint s.pc).toNat]? = some iw ∧ fetch s = some iw) ∧
  (∀ s : State, s.status = .running → (sint s.pc < 0 ∨ s.prog.length ≤ sint s.pc) → Raises .fetchOutOfRange s (step s))

/-- R110: a step is enabled, that is, has a next state, exactly when `status` is Running. -/
def Obligations.StepEnabledExactlyWhenRunning : Prop :=
  ∀ s : State, (∃ t, step s = .next t) ↔ s.status = .running

/-- R113, R264: the dispatch is exhaustive: every instruction has a next state in every state, and no step is refused. -/
def Obligations.DispatchIsExhaustive : Prop :=
  (∀ (i : Instr) (s : State), ∃ t, exec i s = .next t) ∧ (∀ (s : State) (r : Refusal), step s ≠ .refused r)

/-- R25: in a step that fetches an instruction and raises no fault `pc` becomes the advanced index, except that `jmp` writes
its immediate, and `jz` writes its own when the popped value is 0; the advance never wraps. -/
def Obligations.PcAdvancesUnlessAJumpWritesIt : Prop :=
  ∀ (s t : State) (iw : IWord) (i : Instr), s.prog.length ≤ plenMax → s.status = .running → s.pcInRange →
    s.prog[(sint s.pc).toNat]? = some iw → decode iw = .ok i → step s = .next t → t.status ≠ .faulted →
    sint (s.pc + 1#64) = sint s.pc + 1 ∧
    (i.target = none → t.pc = s.pc + 1#64) ∧
    (∀ k, i = .jmp k → t.pc = k) ∧
    (∀ k, i = .jz k → (s.stack.head? = some 0#64 → t.pc = k) ∧ (s.stack.head? ≠ some 0#64 → t.pc = s.pc + 1#64))

/-- R63, R31: no store, and nothing else that a step does, reaches the program store. -/
def Obligations.NoStepWritesTheProgramStore : Prop :=
  ∀ s t : State, step s = .next t → t.prog = s.prog

/-- R115: a step ends the run in Halted exactly when it executes `halt`. -/
def Obligations.OnlyHaltEndsInSuccess : Prop :=
  ∀ s t : State, step s = .next t →
    (t.status = .halted ↔ s.pcInRange ∧ ∃ iw, s.prog[(sint s.pc).toNat]? = some iw ∧ decode iw = .ok .halt)

/-! Faults. -/

/-- R260, R251: fault entry writes `status` and `cause` and keeps `pc`, for every class; the codes of the seven classes are 1 to 7. -/
def Obligations.FaultEntryWritesStatusAndCause : Prop :=
  (∀ (f : FaultClass) (s : State), EntersFault f s (s.raise f) ∧ (s.raise f).status.code = 2#2 ∧
    causeCode (s.raise f).cause = f.code) ∧
  causeCode none = 0#3 ∧
  FaultClass.stackUnderflow.code = 1#3 ∧ FaultClass.fetchOutOfRange.code = 2#3 ∧ FaultClass.divisionFault.code = 3#3 ∧
  FaultClass.overflowFault.code = 4#3 ∧ FaultClass.memoryFault.code = 5#3 ∧ FaultClass.illegalInstruction.code = 6#3 ∧
  FaultClass.capacityFault.code = 7#3

/-- R117: in a step that raises a fault `pc` is the unadvanced, out-of-range value for FetchOutOfRange and the index of the
faulting instruction plus 1 for every other fault. -/
def Obligations.FaultingStepLeavesPc : Prop :=
  ∀ s t : State, step s = .next t → t.status = .faulted →
    (t.cause = some .fetchOutOfRange ∧ ¬s.pcInRange ∧ t.pc = s.pc) ∨
    (∃ f, f ≠ .fetchOutOfRange ∧ t.cause = some f ∧ s.pcInRange ∧ t.pc = s.pc + 1#64)

/-- R252, R118, R259: an instruction whose needs exceed `depth` raises StackUnderflow before any other check, and no other
instruction raises it. -/
def Obligations.UnderflowExactlyWhenTooShallow : Prop :=
  ∀ (i : Instr) (s : State), s.status = .running →
    (Raises .stackUnderflow s (exec i s) ↔ s.depth < i.needs)

/-- R254: DivisionFault is raised by `div` and `mod` when the divisor, the top element, is 0, whatever the dividend, and by
nothing else. -/
def Obligations.DivisionFaultExactlyOnZeroDivisor : Prop :=
  ∀ (i : Instr) (s : State), s.status = .running →
    (Raises .divisionFault s (exec i s) ↔ (i = .div ∨ i = .mod) ∧ ∃ b rest, s.stack = 0#64 :: b :: rest)

/-- R255: OverflowFault is raised by `neg` at MIN, by `add`, `sub`, `mul` when the exact result is outside MIN .. MAX, by
`div` and `mod` at MIN and -1, and by nothing else. -/
def Obligations.OverflowFaultExactlyWhenTheResultDoesNotFit : Prop :=
  ∀ (i : Instr) (s : State), s.status = .running →
    (Raises .overflowFault s (exec i s) ↔
      (i = .neg ∧ ∃ a rest, s.stack = a :: rest ∧ sint a = wordMin) ∨
      (∃ a b rest, s.stack = a :: b :: rest ∧
        ((i = .add ∧ ¬fitsWord (sint b + sint a)) ∨ (i = .sub ∧ ¬fitsWord (sint b - sint a)) ∨
         (i = .mul ∧ ¬fitsWord (sint b * sint a)) ∨
         ((i = .div ∨ i = .mod) ∧ sint b = wordMin ∧ sint a = -1))))

/-- R256: MemoryFault is raised by `load` when `addr < 0` or `addr >= mlen`, by `store` when `addr < 0`, by `alloc` when
`n < 0`, and by nothing else (a `store` with one element underflows first, R259). -/
def Obligations.MemoryFaultExactlyOnBadOperand : Prop :=
  ∀ (i : Instr) (s : State), s.status = .running →
    (Raises .memoryFault s (exec i s) ↔
      (i = .load ∧ ∃ addr rest, s.stack = addr :: rest ∧ (sint addr < 0 ∨ s.mem.len ≤ sint addr)) ∨
      (i = .store ∧ ∃ addr v rest, s.stack = addr :: v :: rest ∧ sint addr < 0) ∨
      (i = .alloc ∧ ∃ n rest, s.stack = n :: rest ∧ sint n < 0))

/-- R258: CapacityFault is raised by `ldc` on a full stack, by `store` when `addr + 1 > MEM_CAP`, by `alloc` when
`hlen + n > HEAP_CAP`, and by nothing else. -/
def Obligations.CapacityFaultExactlyOnGrowthPastACapacity : Prop :=
  ∀ (i : Instr) (s : State), s.status = .running → s.stackWithinCap →
    (Raises .capacityFault s (exec i s) ↔
      ((∃ k, i = .ldc k) ∧ s.caps.stack = some s.depth) ∨
      (i = .store ∧ ∃ addr v rest, s.stack = addr :: v :: rest ∧ 0 ≤ sint addr ∧ (s.memCap : Int) < sint addr + 1) ∨
      (i = .alloc ∧ ∃ n rest, s.stack = n :: rest ∧ 0 ≤ sint n ∧ (s.heapCap : Int) < s.heap.len + sint n))

/-! Stack, memory and control instructions. -/

/-- R130: `ldc k` pushes its constant unchanged; CapacityFault when the stack is full. -/
def Obligations.LdcPushesItsConstant : Prop :=
  ∀ (s : State) (k : Word),
    (s.caps.stack ≠ some s.depth → exec (.ldc k) s = .next (s.setStack (k :: s.stack))) ∧
    (s.caps.stack = some s.depth → Raises .capacityFault s (exec (.ldc k) s))

/-- R131: `pop` removes exactly the top element and nothing else; StackUnderflow on the empty stack. -/
def Obligations.PopRemovesTheTop : Prop :=
  ∀ s : State,
    (∀ a rest, s.stack = a :: rest → exec .pop s = .next (s.setStack rest)) ∧
    (s.stack = [] → Raises .stackUnderflow s (exec .pop s))

/-- R140: `load` replaces the address on top by the word of variable memory it names, and changes nothing else; a
negative address, or one at or past `mlen`, raises MemoryFault; the empty stack raises StackUnderflow. -/
def Obligations.LoadReadsVariableMemory : Prop :=
  ∀ s : State, s.stackWithinCap →
    (∀ addr rest, s.stack = addr :: rest →
      (0 ≤ sint addr ∧ sint addr < s.mem.len →
        exec .load s = .next (s.setStack (s.mem.get (sint addr).toNat :: rest))) ∧
      (sint addr < 0 ∨ s.mem.len ≤ sint addr → Raises .memoryFault s (exec .load s))) ∧
    (s.stack = [] → Raises .stackUnderflow s (exec .load s))

/-- R56, R141: after `store` with address `addr` and value `v` under it: the address is popped and `v` kept, `mlen` is
`max(old mlen, addr + 1)`, `M[addr] = v`, a cell skipped by the growth is 0, every other index reads as before, and nothing but
the stack and variable memory has changed; a negative address raises MemoryFault, one past MEM_CAP CapacityFault, fewer than
two elements StackUnderflow. -/
def Obligations.StoreWritesOneWordAndZeroFills : Prop :=
  ∀ s : State, s.mem.wf = true →
    (∀ addr v rest, s.stack = addr :: v :: rest →
      (0 ≤ sint addr ∧ sint addr + 1 ≤ s.memCap →
        ∃ t, exec .store s = .next t ∧ t = (s.setStack (v :: rest)).setMem t.mem ∧
          t.mem.len = max s.mem.len ((sint addr).toNat + 1) ∧
          t.mem.get (sint addr).toNat = v ∧
          (∀ a, s.mem.len ≤ a → a < (sint addr).toNat → t.mem.get a = 0#64) ∧
          (∀ a, a ≠ (sint addr).toNat → t.mem.get a = s.mem.get a)) ∧
      (sint addr < 0 → Raises .memoryFault s (exec .store s)) ∧
      (0 ≤ sint addr ∧ s.memCap < sint addr + 1 → Raises .capacityFault s (exec .store s))) ∧
    (s.depth < 2 → Raises .stackUnderflow s (exec .store s))

/-- R57, R142: `alloc` replaces the length on top by the heap's length before growth, and the heap grows by exactly that many
zero words, its earlier words kept, with nothing else changed; a negative length raises MemoryFault, growth past HEAP_CAP
CapacityFault, the empty stack StackUnderflow. -/
def Obligations.AllocReturnsTheOldLengthAndGrows : Prop :=
  ∀ s : State, s.stackWithinCap → s.heap.wf = true →
    (∀ n rest, s.stack = n :: rest →
      (0 ≤ sint n ∧ s.heap.len + sint n ≤ s.heapCap →
        ∃ t base, exec .alloc s = .next t ∧ t = (s.setStack (base :: rest)).setHeap t.heap ∧
          sint base = s.heap.len ∧ (t.heap.len : Int) = s.heap.len + sint n ∧
          (∀ a, s.heap.len ≤ a → a < t.heap.len → t.heap.get a = 0#64) ∧
          (∀ a, a < s.heap.len → t.heap.get a = s.heap.get a)) ∧
      (sint n < 0 → Raises .memoryFault s (exec .alloc s)) ∧
      (0 ≤ sint n ∧ s.heapCap < s.heap.len + sint n → Raises .capacityFault s (exec .alloc s))) ∧
    (s.stack = [] → Raises .stackUnderflow s (exec .alloc s))

/-- R60, R141: a `load` of the address just stored to, in the order of executed steps, yields the value stored, and the value
is still on the stack. -/
def Obligations.StoreThenLoadYieldsTheValue : Prop :=
  ∀ (s t u : State) (addr v : Word) (rest : List Word), s.mem.wf = true → s.stackWithinCap → s.stack = addr :: v :: rest →
    exec .store s = .next t → t.status ≠ .faulted → exec (.ldc addr) t = .next u → u.status ≠ .faulted →
    exec .load u = .next (u.setStack (v :: v :: rest))

/-- R160: `jmp t` writes `pc` with its immediate, unchecked, and changes nothing else. -/
def Obligations.JmpWritesPc : Prop :=
  ∀ (s : State) (k : Word), exec (.jmp k) s = .next (s.setPc k)

/-- R161: `jz t` consumes the top and writes `pc` with its immediate exactly when the value popped is 0; StackUnderflow on the
empty stack. -/
def Obligations.JzJumpsExactlyOnZero : Prop :=
  ∀ (s : State) (k : Word),
    (∀ v rest, s.stack = v :: rest →
      (v = 0#64 → exec (.jz k) s = .next ((s.setStack rest).setPc k)) ∧
      (v ≠ 0#64 → exec (.jz k) s = .next (s.setStack rest))) ∧
    (s.stack = [] → Raises .stackUnderflow s (exec (.jz k) s))

/-- R162: `halt` sets `status` to Halted and changes nothing else. -/
def Obligations.HaltOnlySetsStatus : Prop :=
  ∀ s : State, exec .halt s = .next (s.setStatus .halted)

/-! Arithmetic. -/

/-- R182, with R181: `add` pushes the exact sum when it fits and raises OverflowFault when it does not. -/
def Obligations.AddIsExactOrFaults : Prop :=
  ∀ s : State, s.stackWithinCap →
    (∀ a b rest, s.stack = a :: b :: rest →
      (fitsWord (sint b + sint a) → ∃ r, exec .add s = .next (s.setStack (r :: rest)) ∧ sint r = sint b + sint a) ∧
      (¬fitsWord (sint b + sint a) → Raises .overflowFault s (exec .add s))) ∧
    (s.depth < 2 → Raises .stackUnderflow s (exec .add s))

/-- R183, with R181: `sub` pushes the element under the top minus the top. -/
def Obligations.SubIsExactOrFaults : Prop :=
  ∀ s : State, s.stackWithinCap →
    (∀ a b rest, s.stack = a :: b :: rest →
      (fitsWord (sint b - sint a) → ∃ r, exec .sub s = .next (s.setStack (r :: rest)) ∧ sint r = sint b - sint a) ∧
      (¬fitsWord (sint b - sint a) → Raises .overflowFault s (exec .sub s))) ∧
    (s.depth < 2 → Raises .stackUnderflow s (exec .sub s))

/-- R184, with R181: `mul` pushes the full signed product when it fits. -/
def Obligations.MulIsExactOrFaults : Prop :=
  ∀ s : State, s.stackWithinCap →
    (∀ a b rest, s.stack = a :: b :: rest →
      (fitsWord (sint b * sint a) → ∃ r, exec .mul s = .next (s.setStack (r :: rest)) ∧ sint r = sint b * sint a) ∧
      (¬fitsWord (sint b * sint a) → Raises .overflowFault s (exec .mul s))) ∧
    (s.depth < 2 → Raises .stackUnderflow s (exec .mul s))

/-- R186: `div` faults on a zero divisor and on MIN / -1, and otherwise pushes the quotient rounded toward zero. -/
def Obligations.DivTruncatesTowardZero : Prop :=
  ∀ s : State, s.stackWithinCap →
    (∀ a b rest, s.stack = a :: b :: rest →
      (sint a = 0 → Raises .divisionFault s (exec .div s)) ∧
      (sint b = wordMin ∧ sint a = -1 → Raises .overflowFault s (exec .div s)) ∧
      (sint a ≠ 0 ∧ ¬(sint b = wordMin ∧ sint a = -1) →
        ∃ q, exec .div s = .next (s.setStack (q :: rest)) ∧ sint q = (sint b).tdiv (sint a))) ∧
    (s.depth < 2 → Raises .stackUnderflow s (exec .div s))

/-- R187: `mod` faults where `div` does, and otherwise pushes `b - a * trunc(b / a)`. -/
def Obligations.ModIsTheTruncatedRemainder : Prop :=
  ∀ s : State, s.stackWithinCap →
    (∀ a b rest, s.stack = a :: b :: rest →
      (sint a = 0 → Raises .divisionFault s (exec .mod s)) ∧
      (sint b = wordMin ∧ sint a = -1 → Raises .overflowFault s (exec .mod s)) ∧
      (sint a ≠ 0 ∧ ¬(sint b = wordMin ∧ sint a = -1) →
        ∃ r, exec .mod s = .next (s.setStack (r :: rest)) ∧ sint r = sint b - sint a * (sint b).tdiv (sint a))) ∧
    (s.depth < 2 → Raises .stackUnderflow s (exec .mod s))

/-- R185: where neither faults, the word `q` of `div` is the quotient truncated toward zero, and it and the word `r` of `mod` satisfy `b = a * q + r`, `|r| < |a|`, and `r` is zero or
has the sign of the dividend; a zero divisor and MIN with -1 fault in both. -/
def Obligations.QuotientAndRemainderObeyTheDivisionLaw : Prop :=
  ∀ (s : State) (a b : Word) (rest : List Word), s.stackWithinCap → s.stack = a :: b :: rest →
    (sint a ≠ 0 ∧ ¬(sint b = wordMin ∧ sint a = -1) →
      ∃ q r, exec .div s = .next (s.setStack (q :: rest)) ∧ exec .mod s = .next (s.setStack (r :: rest)) ∧
        sint q = (sint b).tdiv (sint a) ∧ sint b = sint a * sint q + sint r ∧ (sint r).natAbs < (sint a).natAbs ∧
        (sint r = 0 ∨ (0 < sint r ∧ 0 < sint b) ∨ (sint r < 0 ∧ sint b < 0))) ∧
    (sint a = 0 → Raises .divisionFault s (exec .div s) ∧ Raises .divisionFault s (exec .mod s)) ∧
    (sint b = wordMin ∧ sint a = -1 → Raises .overflowFault s (exec .div s) ∧ Raises .overflowFault s (exec .mod s))

/-- R185: truncating and flooring division agree unless the operands have different signs and the divisor does not divide the
dividend: there `div` and `mod` push the floored quotient and remainder too. -/
def Obligations.DivisionAgreesWithFlooringOffMixedSigns : Prop :=
  ∀ (s : State) (a b : Word) (rest : List Word), s.stackWithinCap → s.stack = a :: b :: rest → sint a ≠ 0 →
    ¬(sint b = wordMin ∧ sint a = -1) →
    ((0 ≤ sint a ∧ 0 ≤ sint b) ∨ (sint a ≤ 0 ∧ sint b ≤ 0) ∨ sint a ∣ sint b) →
    ∃ q r, exec .div s = .next (s.setStack (q :: rest)) ∧ sint q = (sint b).fdiv (sint a) ∧
      exec .mod s = .next (s.setStack (r :: rest)) ∧ sint r = (sint b).fmod (sint a)

/-- R188: `neg` pushes the negation, and raises OverflowFault at MIN, the only word whose negation does not fit. -/
def Obligations.NegFaultsOnlyAtMin : Prop :=
  ∀ s : State, s.stackWithinCap →
    (∀ a rest, s.stack = a :: rest →
      (sint a ≠ wordMin → ∃ r, exec .neg s = .next (s.setStack (r :: rest)) ∧ sint r = -(sint a)) ∧
      (sint a = wordMin → Raises .overflowFault s (exec .neg s))) ∧
    (s.stack = [] → Raises .stackUnderflow s (exec .neg s))

/-! Logic and comparison. -/

/-- R210 to R213: a word is true exactly when it is 1; `and` pushes 1 exactly when both words are 1, `or` when one of them is, `not`
when its word is not 1; otherwise they push 0. StackUnderflow is their only fault. -/
def Obligations.LogicTreatsOnlyTheWordOneAsTrue : Prop :=
  ∀ s : State, s.stackWithinCap →
    (∀ a b rest, s.stack = a :: b :: rest →
      exec .and s = .next (s.setStack ((if a = 1#64 ∧ b = 1#64 then 1#64 else 0#64) :: rest)) ∧
      exec .or s = .next (s.setStack ((if a = 1#64 ∨ b = 1#64 then 1#64 else 0#64) :: rest))) ∧
    (∀ a rest, s.stack = a :: rest →
      exec .not s = .next (s.setStack ((if a = 1#64 then 0#64 else 1#64) :: rest))) ∧
    (s.depth < 2 → Raises .stackUnderflow s (exec .and s) ∧ Raises .stackUnderflow s (exec .or s)) ∧
    (s.stack = [] → Raises .stackUnderflow s (exec .not s))

/-- R231 to R236: each comparison pushes 1 if the signed relation `b rel a` holds and 0 if it does not; StackUnderflow below
two elements. -/
def Obligations.ComparisonsAreSigned : Prop :=
  ∀ s : State, s.stackWithinCap →
    (∀ a b rest, s.stack = a :: b :: rest →
      exec .eq s = .next (s.setStack ((if sint b = sint a then 1#64 else 0#64) :: rest)) ∧
      exec .ne s = .next (s.setStack ((if sint b ≠ sint a then 1#64 else 0#64) :: rest)) ∧
      exec .lt s = .next (s.setStack ((if sint b < sint a then 1#64 else 0#64) :: rest)) ∧
      exec .le s = .next (s.setStack ((if sint b ≤ sint a then 1#64 else 0#64) :: rest)) ∧
      exec .gt s = .next (s.setStack ((if sint b > sint a then 1#64 else 0#64) :: rest)) ∧
      exec .ge s = .next (s.setStack ((if sint b ≥ sint a then 1#64 else 0#64) :: rest))) ∧
    (s.depth < 2 → ∀ i, i ∈ [Instr.eq, .ne, .lt, .le, .gt, .ge] → Raises .stackUnderflow s (exec i s))

/-- R230: on the same operands exactly one of `lt`, `eq`, `gt` pushes 1, and `ne`, `ge`, `le` push the complements of `eq`, `lt`,
`gt`; each word pushed is 0 or 1. -/
def Obligations.ComparisonsSplitEveryPair : Prop :=
  ∀ (s : State) (a b : Word) (rest : List Word), s.stackWithinCap → s.stack = a :: b :: rest →
    ∃ e n l m g h : Word,
      exec .eq s = .next (s.setStack (e :: rest)) ∧ exec .ne s = .next (s.setStack (n :: rest)) ∧
      exec .lt s = .next (s.setStack (l :: rest)) ∧ exec .le s = .next (s.setStack (m :: rest)) ∧
      exec .gt s = .next (s.setStack (g :: rest)) ∧ exec .ge s = .next (s.setStack (h :: rest)) ∧
      sint l + sint e + sint g = 1 ∧ 0 ≤ sint l ∧ 0 ≤ sint e ∧ 0 ≤ sint g ∧
      sint n = 1 - sint e ∧ sint h = 1 - sint l ∧ sint m = 1 - sint g ∧ (e = 1#64 ↔ m = 1#64 ∧ h = 1#64)

/-! Whole-machine rules and frames, over all instructions. -/

/-- R118: the net change of `depth` where no fault is raised is Pushes - Pops; an instruction whose needs exceed `depth` raises
StackUnderflow, whatever else is wrong with its operands. -/
def Obligations.NetDepthChangeIsPushesMinusPops : Prop :=
  ∀ (i : Instr) (s : State),
    (∀ t, exec i s = .next t → t.status ≠ .faulted → i.needs ≤ s.depth ∧ t.depth + i.pops = s.depth + i.pushes) ∧
    (s.depth < i.needs → Raises .stackUnderflow s (exec i s))

/-- R22: no instruction reaches an element below those it pops: what lies under them is what lies under the word it pushes. -/
def Obligations.StackBelowTheOperandsIsUntouched : Prop :=
  ∀ (i : Instr) (s t : State), exec i s = .next t → t.status ≠ .faulted →
    t.stack.drop i.pushes = s.stack.drop i.pops

/-- Frame of every instruction, where no fault is raised: the program store and the capacities never change; `cause` never;
`status` only by `halt`; `pc` only by a jump; the stack only by the elements popped and pushed; variable memory only by `store`, and
there only at the address popped; the heap only by `alloc`, and there no earlier word. -/
def Obligations.EveryInstructionKeepsItsFrame : Prop :=
  ∀ (i : Instr) (s t : State), exec i s = .next t → t.status ≠ .faulted →
    t.prog = s.prog ∧ t.caps = s.caps ∧ t.cause = s.cause ∧
    (i ≠ .halt → t.status = s.status) ∧
    (i.target = none → t.pc = s.pc) ∧
    t.stack.drop i.pushes = s.stack.drop i.pops ∧ t.depth + i.pops = s.depth + i.pushes ∧
    (i ≠ .store → t.mem = s.mem) ∧
    (∀ addr v rest, i = .store → s.stack = addr :: v :: rest →
      ∀ a, a ≠ (sint addr).toNat → t.mem.get a = s.mem.get a) ∧
    (i ≠ .alloc → t.heap = s.heap) ∧
    (∀ a, t.heap.get a = s.heap.get a)

/-- R29, R57: neither `mlen` nor `hlen` decreases in a step that raises no fault. -/
def Obligations.StorageNeverShrinks : Prop :=
  ∀ s t : State, step s = .next t → t.status ≠ .faulted → s.mem.len ≤ t.mem.len ∧ s.heap.len ≤ t.heap.len

/-- R50: the heap and variable memory are separate spaces: what an instruction other than `alloc` does is the same whatever the
heap holds, and what one other than `load` and `store` does is the same whatever variable memory holds. -/
def Obligations.HeapAndMemoryAreSeparate : Prop :=
  ∀ (i : Instr) (s t : State) (m : Memory), exec i s = .next t → t.status ≠ .faulted →
    (i ≠ .alloc → exec i (s.setHeap m) = .next (t.setHeap m)) ∧
    (i ≠ .load ∧ i ≠ .store → exec i (s.setMem m) = .next (t.setMem m))

/-! Invariants. -/

/-- R33, R300: every state that Construct gives is sound and has only zero words in its heap; so is `State.reset`. -/
def Obligations.ConstructedStateIsSound : Prop :=
  (∀ (s t : State) (prog : List IWord), construct prog s = some t → t.Sound ∧ t.heapZero) ∧
  State.reset.Sound ∧ State.reset.heapZero

/-- R20, R28: the bounds of every item of state, the relation of `cause` with `status`, and the canonical form of the storages are
kept by every step, into a Faulted state too. -/
def Obligations.EveryStepKeepsTheStateSound : Prop :=
  ∀ s t : State, s.Sound → step s = .next t → t.Sound

/-- R30: every heap word is 0 at all times (a Faulted state's heap is unspecified, R260, and nothing is said of it). -/
def Obligations.EveryStepKeepsTheHeapZero : Prop :=
  ∀ s t : State, s.heapZero → step s = .next t → t.heapZero

/-- R302: a well-formed program (every word legal, every target in range, a `halt` on every path) keeps control inside itself: an
engine inside is in range, and its step ends inside and raises neither FetchOutOfRange nor IllegalInstruction. How "a `halt` on every
path" is read is DEDUCED, log entry 12. -/
def Obligations.WellFormedProgramKeepsControlInside : Prop :=
  ∀ s t : State, s.Sound → s.Contained → step s = .next t →
    s.pcInRange ∧ t.Contained ∧ t.cause ≠ some .fetchOutOfRange ∧ t.cause ≠ some .illegalInstruction

/-- R302: the whole run of an engine constructed with a well-formed program never ends with cause 2 or 6, whatever its operands. How
"a `halt` on every path" is read is DEDUCED, log entry 12. -/
def Obligations.WellFormedProgramNeverEndsInFetchOrDecodeFault : Prop :=
  ∀ (prog : List IWord) (p : List Instr) (s t u : State) (n : Nat),
    decodeProgram prog = some p → ProgramWellFormed p → construct prog s = some t → runFor n t = some u →
    u.cause ≠ some .fetchOutOfRange ∧ u.cause ≠ some .illegalInstruction

/-- R256: what R302 calls class 5 for negative operands is a property of the state before the step, and so is its other case: a step
raises MemoryFault exactly when it is about to use a negative address or length, or to load at or past `mlen`. -/
def Obligations.MemoryFaultIsANegativeOperandOrALoadPastTheEnd : Prop :=
  ∀ s : State, s.status = .running →
    ((∃ t, step s = .next t ∧ t.status = .faulted ∧ t.cause = some .memoryFault) ↔
      s.usesNegativeOperand ∨ s.loadsPastTheEnd)

/-- R302: the run of a well-formed program, whose steps use no negative operand, raises no fault of classes 2 and 6, and of class 5
none but that of a `load` at or past `mlen`. How "a `halt` on every path" is read is DEDUCED, log entry 12. -/
def Obligations.WellFormedRunRaisesNoneOfTheThreeFaults : Prop :=
  ∀ (prog : List IWord) (s t u : State) (n : Nat), construct prog s = some t → t.RunsWellFormed → runFor n t = some u →
    u.cause ≠ some .fetchOutOfRange ∧ u.cause ≠ some .illegalInstruction ∧
    (u.cause = some .memoryFault →
      ∃ k v, after k t = some v ∧ ¬v.usesNegativeOperand ∧ v.loadsPastTheEnd ∧ step v = .next u)
end

