-- ==== Sys2Proof/Laws/Encoding.lean ====
section
/-! SUPPORT. The two fields of an instruction word, and bytes put together and taken apart. -/

namespace Sys2Proof

theorem opField_append (k : Word) (op : BitVec 8) : opField (k ++ op) = op := by
  rw [opField]
  ext i hi
  simp only [BitVec.getElem_extractLsb', BitVec.getLsbD_append]
  simp [hi]

theorem immField_append (k : Word) (op : BitVec 8) : immField (k ++ op) = k := by
  rw [immField]
  ext i hi
  simp only [BitVec.getElem_extractLsb', BitVec.getLsbD_append]
  simp [hi]

/-- An instruction word is its two fields (R81). -/
theorem fields_append (iw : IWord) : immField iw ++ opField iw = iw := by
  apply BitVec.eq_of_getLsbD_eq
  intro i hi
  simp only [immField, opField, BitVec.getLsbD_append, BitVec.getLsbD_extractLsb']
  by_cases h : i < 8
  · simp [h]
  · have h64 : i - 8 < 64 := by omega
    have h8 : 8 + (i - 8) = i := by omega
    simp [h, h64, h8]

end Sys2Proof
end

