-- ==== Sys2Proof/Laws/Memory.lean ====
section
/-! SUPPORT. Storage: read after write, and that every storage operation keeps the canonical form. -/

namespace Sys2Proof.Machine

@[simp] theorem Memory.write_len (m : Memory) (a : Nat) (v : Word) : (m.write a v).len = max m.len (a + 1) := rfl

@[simp] theorem Memory.growTo_len (m : Memory) (n : Nat) : (m.growTo n).len = max m.len n := rfl

@[simp] theorem Memory.empty_len : Memory.empty.len = 0 := rfl

@[simp] theorem Memory.empty_get (a : Nat) : Memory.empty.get a = 0#64 := rfl

@[simp] theorem Memory.growTo_get (m : Memory) (n a : Nat) : (m.growTo n).get a = m.get a := rfl

theorem cellsCanonical_cons {len lo a : Nat} {w : Word} {rest : List (Nat × Word)} :
    cellsCanonical len lo ((a, w) :: rest) = true ↔
      lo ≤ a ∧ a < len ∧ w ≠ 0#64 ∧ cellsCanonical len (a + 1) rest = true := by
  simp [cellsCanonical, and_assoc]

/-- The bounds of the canonical form may be widened on both sides. -/
theorem cellsCanonical_widen {len len' : Nat} (hlen : len ≤ len') {cs : List (Nat × Word)} :
    ∀ {lo lo' : Nat}, lo' ≤ lo → cellsCanonical len lo cs = true → cellsCanonical len' lo' cs = true := by
  induction cs with
  | nil => intros; rfl
  | cons c rest ih =>
    obtain ⟨a, w⟩ := c
    intro lo lo' hlo h
    rw [cellsCanonical_cons] at h ⊢
    exact ⟨by omega, by omega, h.2.2.1, ih (le_refl _) h.2.2.2⟩

/-- An index below every listed one reads 0. -/
theorem getCell_below {len : Nat} {cs : List (Nat × Word)} :
    ∀ {lo a : Nat}, cellsCanonical len lo cs = true → a < lo → getCell cs a = 0#64 := by
  induction cs with
  | nil => intros; rfl
  | cons c rest ih =>
    obtain ⟨b, w⟩ := c
    intro lo a h ha
    rw [cellsCanonical_cons] at h
    rw [getCell, if_neg (by omega)]
    exact ih h.2.2.2 (by omega)

/-- An index at or past the length reads 0. -/
theorem getCell_past {len a : Nat} (ha : len ≤ a) {cs : List (Nat × Word)} :
    ∀ {lo : Nat}, cellsCanonical len lo cs = true → getCell cs a = 0#64 := by
  induction cs with
  | nil => intros; rfl
  | cons c rest ih =>
    obtain ⟨b, w⟩ := c
    intro lo h
    rw [cellsCanonical_cons] at h
    rw [getCell, if_neg (by omega)]
    exact ih h.2.2.2

theorem getCell_putCell_other {a x : Nat} {v : Word} (hx : x ≠ a) (cs : List (Nat × Word)) :
    getCell (putCell cs a v) x = getCell cs x := by
  induction cs with
  | nil => by_cases hv : v = 0#64 <;> simp [putCell, getCell, hv, hx]
  | cons c rest ih =>
    obtain ⟨b, w⟩ := c
    rcases Nat.lt_trichotomy a b with h | h | h
    · by_cases hv : v = 0#64 <;> simp [putCell, getCell, h, hv, hx]
    · subst h
      by_cases hv : v = 0#64 <;> simp [putCell, getCell, hv, hx]
    · rw [putCell, if_neg (by omega), if_neg (by omega), getCell, getCell, ih]

theorem getCell_putCell_same {len a : Nat} {v : Word} {cs : List (Nat × Word)} :
    ∀ {lo : Nat}, cellsCanonical len lo cs = true → getCell (putCell cs a v) a = v := by
  induction cs with
  | nil =>
    intro lo _
    by_cases hv : v = 0#64 <;> simp [putCell, getCell, hv]
  | cons c rest ih =>
    obtain ⟨b, w⟩ := c
    intro lo h
    rw [cellsCanonical_cons] at h
    rcases Nat.lt_trichotomy a b with hab | hab | hab
    · rw [putCell, if_pos hab]
      by_cases hv : v = 0#64
      · rw [if_pos hv, getCell, if_neg (by omega), hv]
        exact getCell_below h.2.2.2 (by omega)
      · simp [hv, getCell]
    · subst hab
      rw [putCell, if_neg (lt_irrefl _), if_pos rfl]
      by_cases hv : v = 0#64
      · rw [if_pos hv, hv]
        exact getCell_below h.2.2.2 (Nat.lt_succ_self _)
      · simp [hv, getCell]
    · rw [putCell, if_neg (by omega), if_neg (by omega), getCell, if_neg (by omega)]
      exact ih h.2.2.2

theorem cellsCanonical_putCell {len a : Nat} {v : Word} (ha : a < len) {cs : List (Nat × Word)} :
    ∀ {lo : Nat}, lo ≤ a → cellsCanonical len lo cs = true → cellsCanonical len lo (putCell cs a v) = true := by
  induction cs with
  | nil =>
    intro lo hlo _
    by_cases hv : v = 0#64
    · simp [putCell, hv, cellsCanonical]
    · simp [putCell, hv, cellsCanonical, hlo, ha]
  | cons c rest ih =>
    obtain ⟨b, w⟩ := c
    intro lo hlo h
    rw [cellsCanonical_cons] at h
    rcases Nat.lt_trichotomy a b with hab | hab | hab
    · rw [putCell, if_pos hab]
      split
      · exact cellsCanonical_cons.2 h
      · next hv =>
        exact cellsCanonical_cons.2 ⟨hlo, ha, hv, cellsCanonical_cons.2 ⟨by omega, h.2⟩⟩
    · subst hab
      rw [putCell, if_neg (lt_irrefl _), if_pos rfl]
      split
      · exact cellsCanonical_widen (le_refl _) (by omega) h.2.2.2
      · next hv => exact cellsCanonical_cons.2 ⟨hlo, ha, hv, h.2.2.2⟩
    · rw [putCell, if_neg (by omega), if_neg (by omega), cellsCanonical_cons]
      exact ⟨h.1, h.2.1, h.2.2.1, ih (by omega) h.2.2.2⟩

/-- Construct's empty arrays are canonical. -/
theorem Memory.empty_wf : Memory.empty.wf = true := rfl

/-- Growth keeps the canonical form. -/
theorem Memory.growTo_wf {m : Memory} (n : Nat) (h : m.wf = true) : (m.growTo n).wf = true :=
  cellsCanonical_widen (Nat.le_max_left _ _) (le_refl _) h

/-- A write keeps the canonical form. -/
theorem Memory.write_wf {m : Memory} (a : Nat) (v : Word) (h : m.wf = true) : (m.write a v).wf = true :=
  cellsCanonical_putCell (by simp [Memory.write]) (Nat.zero_le _)
    (cellsCanonical_widen (Nat.le_max_left _ _) (le_refl _) h)

/-- A read after a write to the same index gives the value written. -/
theorem Memory.get_write_same {m : Memory} (a : Nat) (v : Word) (h : m.wf = true) : (m.write a v).get a = v :=
  getCell_putCell_same h

/-- A write leaves every other index alone. -/
theorem Memory.get_write_other (m : Memory) {a x : Nat} (v : Word) (hx : x ≠ a) : (m.write a v).get x = m.get x :=
  getCell_putCell_other hx m.cells

/-- An index at or past the length is unlisted, so it reads 0 once growth brings it in. -/
theorem Memory.get_past {m : Memory} {a : Nat} (h : m.wf = true) (ha : m.len ≤ a) : m.get a = 0#64 :=
  getCell_past ha h

theorem cellsCanonical_freeCells (k : Nat) :
    ∀ n i lo : Nat, lo ≤ i → cellsCanonical (i + n) lo (freeCells k n i) = true := by
  intro n
  induction n with
  | zero => intros; rfl
  | succ n ih =>
    intro i lo hlo
    rw [freeCells, show i + (n + 1) = i + 1 + n by omega]
    split
    · exact ih (i + 1) lo (by omega)
    · next hv => exact cellsCanonical_cons.2 ⟨hlo, by omega, hv, ih (i + 1) (i + 1) (le_refl _)⟩

/-- The free arrays of a Faulted state are canonical too. -/
theorem freeMemory_wf (k cap : Nat) : (freeMemory k cap).wf = true := by
  have h := cellsCanonical_freeCells k (min (Config.postFaultLen k) cap) 0 0 (le_refl _)
  rwa [Nat.zero_add] at h

/-- The free arrays of a Faulted state stay within their capacity. -/
theorem freeMemory_within (k cap : Nat) : (freeMemory k cap).len ≤ cap := Nat.min_le_right _ _

/-- The free stack of a Faulted state stays within STACK_CAP. -/
theorem freeStack_within (k n : Nat) : (freeStack k (some n)).length ≤ n := by
  simp [freeStack]

end Sys2Proof.Machine
end

