-- ==== Sys2Proof/Laws/State.lean ====
section
/-! SUPPORT. One lemma per field per update of State, and for fault entry, so that no proof unfolds a record update. -/

namespace Sys2Proof.Machine

section Updates

variable (s : State)

@[simp] theorem State.setPc_prog (t : Word) : (s.setPc t).prog = s.prog := rfl
@[simp] theorem State.setPc_pc (t : Word) : (s.setPc t).pc = t := rfl
@[simp] theorem State.setPc_stack (t : Word) : (s.setPc t).stack = s.stack := rfl
@[simp] theorem State.setPc_mem (t : Word) : (s.setPc t).mem = s.mem := rfl
@[simp] theorem State.setPc_heap (t : Word) : (s.setPc t).heap = s.heap := rfl
@[simp] theorem State.setPc_status (t : Word) : (s.setPc t).status = s.status := rfl
@[simp] theorem State.setPc_cause (t : Word) : (s.setPc t).cause = s.cause := rfl
@[simp] theorem State.setPc_caps (t : Word) : (s.setPc t).caps = s.caps := rfl
@[simp] theorem State.setPc_freeCount (t : Word) : (s.setPc t).freeCount = s.freeCount := rfl

@[simp] theorem State.setStack_prog (l : List Word) : (s.setStack l).prog = s.prog := rfl
@[simp] theorem State.setStack_pc (l : List Word) : (s.setStack l).pc = s.pc := rfl
@[simp] theorem State.setStack_stack (l : List Word) : (s.setStack l).stack = l := rfl
@[simp] theorem State.setStack_mem (l : List Word) : (s.setStack l).mem = s.mem := rfl
@[simp] theorem State.setStack_heap (l : List Word) : (s.setStack l).heap = s.heap := rfl
@[simp] theorem State.setStack_status (l : List Word) : (s.setStack l).status = s.status := rfl
@[simp] theorem State.setStack_cause (l : List Word) : (s.setStack l).cause = s.cause := rfl
@[simp] theorem State.setStack_caps (l : List Word) : (s.setStack l).caps = s.caps := rfl
@[simp] theorem State.setStack_freeCount (l : List Word) : (s.setStack l).freeCount = s.freeCount := rfl

@[simp] theorem State.setMem_prog (m : Memory) : (s.setMem m).prog = s.prog := rfl
@[simp] theorem State.setMem_pc (m : Memory) : (s.setMem m).pc = s.pc := rfl
@[simp] theorem State.setMem_stack (m : Memory) : (s.setMem m).stack = s.stack := rfl
@[simp] theorem State.setMem_mem (m : Memory) : (s.setMem m).mem = m := rfl
@[simp] theorem State.setMem_heap (m : Memory) : (s.setMem m).heap = s.heap := rfl
@[simp] theorem State.setMem_status (m : Memory) : (s.setMem m).status = s.status := rfl
@[simp] theorem State.setMem_cause (m : Memory) : (s.setMem m).cause = s.cause := rfl
@[simp] theorem State.setMem_caps (m : Memory) : (s.setMem m).caps = s.caps := rfl
@[simp] theorem State.setMem_freeCount (m : Memory) : (s.setMem m).freeCount = s.freeCount := rfl

@[simp] theorem State.setHeap_prog (h : Memory) : (s.setHeap h).prog = s.prog := rfl
@[simp] theorem State.setHeap_pc (h : Memory) : (s.setHeap h).pc = s.pc := rfl
@[simp] theorem State.setHeap_stack (h : Memory) : (s.setHeap h).stack = s.stack := rfl
@[simp] theorem State.setHeap_mem (h : Memory) : (s.setHeap h).mem = s.mem := rfl
@[simp] theorem State.setHeap_heap (h : Memory) : (s.setHeap h).heap = h := rfl
@[simp] theorem State.setHeap_status (h : Memory) : (s.setHeap h).status = s.status := rfl
@[simp] theorem State.setHeap_cause (h : Memory) : (s.setHeap h).cause = s.cause := rfl
@[simp] theorem State.setHeap_caps (h : Memory) : (s.setHeap h).caps = s.caps := rfl
@[simp] theorem State.setHeap_freeCount (h : Memory) : (s.setHeap h).freeCount = s.freeCount := rfl

@[simp] theorem State.setStatus_prog (u : Status) : (s.setStatus u).prog = s.prog := rfl
@[simp] theorem State.setStatus_pc (u : Status) : (s.setStatus u).pc = s.pc := rfl
@[simp] theorem State.setStatus_stack (u : Status) : (s.setStatus u).stack = s.stack := rfl
@[simp] theorem State.setStatus_mem (u : Status) : (s.setStatus u).mem = s.mem := rfl
@[simp] theorem State.setStatus_heap (u : Status) : (s.setStatus u).heap = s.heap := rfl
@[simp] theorem State.setStatus_status (u : Status) : (s.setStatus u).status = u := rfl
@[simp] theorem State.setStatus_cause (u : Status) : (s.setStatus u).cause = s.cause := rfl
@[simp] theorem State.setStatus_caps (u : Status) : (s.setStatus u).caps = s.caps := rfl
@[simp] theorem State.setStatus_freeCount (u : Status) : (s.setStatus u).freeCount = s.freeCount := rfl

@[simp] theorem State.setPc_setPc (t t' : Word) : (s.setPc t).setPc t' = s.setPc t' := rfl
@[simp] theorem State.setPc_self : s.setPc s.pc = s := rfl
@[simp] theorem State.setStack_setStack (l l' : List Word) : (s.setStack l).setStack l' = s.setStack l' := rfl
@[simp] theorem State.setStack_self : s.setStack s.stack = s := rfl
@[simp] theorem State.setMem_setMem (m m' : Memory) : (s.setMem m).setMem m' = s.setMem m' := rfl
@[simp] theorem State.setMem_self : s.setMem s.mem = s := rfl
@[simp] theorem State.setHeap_setHeap (h h' : Memory) : (s.setHeap h).setHeap h' = s.setHeap h' := rfl
@[simp] theorem State.setHeap_self : s.setHeap s.heap = s := rfl
@[simp] theorem State.setStatus_setStatus (u u' : Status) : (s.setStatus u).setStatus u' = s.setStatus u' := rfl
@[simp] theorem State.setStatus_self : s.setStatus s.status = s := rfl

@[simp] theorem State.setStack_depth (l : List Word) : (s.setStack l).depth = l.length := rfl
@[simp] theorem State.setPc_depth (t : Word) : (s.setPc t).depth = s.depth := rfl
@[simp] theorem State.setMem_depth (m : Memory) : (s.setMem m).depth = s.depth := rfl
@[simp] theorem State.setHeap_depth (h : Memory) : (s.setHeap h).depth = s.depth := rfl
@[simp] theorem State.setStatus_depth (u : Status) : (s.setStatus u).depth = s.depth := rfl
@[simp] theorem State.setPc_memCap (t : Word) : (s.setPc t).memCap = s.memCap := rfl
@[simp] theorem State.setPc_heapCap (t : Word) : (s.setPc t).heapCap = s.heapCap := rfl
@[simp] theorem State.setStack_memCap (l : List Word) : (s.setStack l).memCap = s.memCap := rfl
@[simp] theorem State.setStack_heapCap (l : List Word) : (s.setStack l).heapCap = s.heapCap := rfl
@[simp] theorem State.setMem_memCap (m : Memory) : (s.setMem m).memCap = s.memCap := rfl
@[simp] theorem State.setMem_heapCap (m : Memory) : (s.setMem m).heapCap = s.heapCap := rfl
@[simp] theorem State.setHeap_memCap (h : Memory) : (s.setHeap h).memCap = s.memCap := rfl
@[simp] theorem State.setHeap_heapCap (h : Memory) : (s.setHeap h).heapCap = s.heapCap := rfl
@[simp] theorem State.setStatus_memCap (u : Status) : (s.setStatus u).memCap = s.memCap := rfl
@[simp] theorem State.setStatus_heapCap (u : Status) : (s.setStatus u).heapCap = s.heapCap := rfl

end Updates

section Raise

variable (f : FaultClass) (s : State)

@[simp] theorem State.raise_prog : (s.raise f).prog = s.prog := rfl
@[simp] theorem State.raise_pc : (s.raise f).pc = s.pc := rfl
@[simp] theorem State.raise_status : (s.raise f).status = .faulted := rfl
@[simp] theorem State.raise_cause : (s.raise f).cause = some f := rfl
@[simp] theorem State.raise_caps : (s.raise f).caps = s.caps := rfl
@[simp] theorem State.raise_freeCount : (s.raise f).freeCount = s.freeCount + 2 := rfl
@[simp] theorem State.raise_memCap : (s.raise f).memCap = s.memCap := rfl
@[simp] theorem State.raise_heapCap : (s.raise f).heapCap = s.heapCap := rfl
@[simp] theorem State.raise_stack : (s.raise f).stack = freeStack s.freeCount s.caps.stack := rfl
@[simp] theorem State.raise_mem : (s.raise f).mem = freeMemory s.freeCount s.memCap := rfl
@[simp] theorem State.raise_heap : (s.raise f).heap = freeMemory (s.freeCount + 1) s.heapCap := rfl

end Raise

@[simp] theorem advance_eq (s : State) : advance s = s.setPc (s.pc + 1#64) := rfl

end Sys2Proof.Machine
end

