-- ==== Sys2Proof/Laws/Ops.lean ====
section
/-! SUPPORT. What each shared operation can do, said once: its answer where it completes, and the inversion of an `ok`. -/

namespace Sys2Proof.Machine

@[simp] theorem need_ok {n : Nat} {s : State} (h : n ≤ s.depth) : need n s = .ok () :=
  if_neg (by omega)

theorem need_short {n : Nat} {s : State} (h : s.depth < n) : need n s = .error .stackUnderflow :=
  if_pos h

theorem need_inv {n : Nat} {s : State} {u : Unit} (h : need n s = .ok u) : n ≤ s.depth := by
  by_contra hn
  rw [need_short (by omega)] at h
  cases h

theorem pop_cons {s : State} {a : Word} {rest : List Word} (h : s.stack = a :: rest) :
    pop s = .ok (a, s.setStack rest) := by
  simp [pop, h]

theorem top_cons {s : State} {a : Word} {rest : List Word} (h : s.stack = a :: rest) : top s = .ok a := by
  simp [top, h]

theorem push_ok {v : Word} {s : State} (h : ¬s.stackFull) : push v s = .ok (s.setStack (v :: s.stack)) :=
  if_neg h

theorem push_full {v : Word} {s : State} (h : s.stackFull) : push v s = .error .capacityFault :=
  if_pos h

theorem push_inv {v : Word} {s t : State} (h : push v s = .ok t) : t = s.setStack (v :: s.stack) := by
  by_cases hf : s.stackFull
  · rw [push_full hf] at h; cases h
  · rw [push_ok hf] at h; cases h; rfl

/-- A word read back has the value it was made of, where that value fits (R6). -/
theorem sint_wordOf {r : Int} (h : fitsWord r) : sint (wordOf r) = r := by
  have h' : -9223372036854775808 ≤ r ∧ r ≤ 9223372036854775807 := h
  rw [sint, wordOf, BitVec.toInt_ofInt, Int.bmod_def]
  omega

/-- Every word lies in MIN .. MAX (R6). -/
theorem sint_fits (w : Word) : fitsWord (sint w) := by
  have h1 := BitVec.le_toInt w
  have h2 := BitVec.toInt_lt (x := w)
  simp only [fitsWord, wordMin, wordMax, sint]
  omega

theorem narrow_ok {r : Int} (h : fitsWord r) : narrow r = .ok (wordOf r) := if_pos h

theorem narrow_overflow {r : Int} (h : ¬fitsWord r) : narrow r = .error .overflowFault := if_neg h

theorem memRead_ok {addr : Word} {s : State} (h0 : 0 ≤ sint addr) (h1 : (sint addr).toNat < s.mem.len) :
    memRead addr s = .ok (s.mem.get (sint addr).toNat) := by
  rw [memRead, if_neg (by omega), if_neg (by omega)]

theorem memRead_fault {addr : Word} {s : State} (h : sint addr < 0 ∨ s.mem.len ≤ (sint addr).toNat) :
    memRead addr s = .error .memoryFault := by
  rw [memRead]
  split
  · rfl
  · rw [if_pos (by omega)]

theorem memWrite_ok {addr v : Word} {s : State} (h0 : 0 ≤ sint addr) (h1 : (sint addr).toNat + 1 ≤ s.memCap) :
    memWrite addr v s = .ok (s.setMem (s.mem.write (sint addr).toNat v)) := by
  rw [memWrite, if_neg (by omega), if_neg (by omega)]

theorem memWrite_negative {addr v : Word} {s : State} (h : sint addr < 0) :
    memWrite addr v s = .error .memoryFault := if_pos h

theorem memWrite_full {addr v : Word} {s : State} (h0 : 0 ≤ sint addr) (h1 : s.memCap < (sint addr).toNat + 1) :
    memWrite addr v s = .error .capacityFault := by
  rw [memWrite, if_neg (by omega), if_pos h1]

theorem memWrite_inv {addr v : Word} {s t : State} (h : memWrite addr v s = .ok t) :
    0 ≤ sint addr ∧ (sint addr).toNat + 1 ≤ s.memCap ∧ t = s.setMem (s.mem.write (sint addr).toNat v) := by
  rw [memWrite] at h
  split at h
  · cases h
  · split at h
    · cases h
    · cases h
      exact ⟨by omega, by omega, rfl⟩

theorem heapAlloc_ok {n : Word} {s : State} (h0 : 0 ≤ sint n) (h1 : s.heap.len + (sint n).toNat ≤ s.heapCap) :
    heapAlloc n s = .ok (wordOf s.heap.len, s.setHeap (s.heap.growTo (s.heap.len + (sint n).toNat))) := by
  rw [heapAlloc, if_neg (by omega), if_neg (by omega)]

theorem heapAlloc_negative {n : Word} {s : State} (h : sint n < 0) : heapAlloc n s = .error .memoryFault := if_pos h

theorem heapAlloc_full {n : Word} {s : State} (h0 : 0 ≤ sint n) (h1 : s.heapCap < s.heap.len + (sint n).toNat) :
    heapAlloc n s = .error .capacityFault := by
  rw [heapAlloc, if_neg (by omega), if_pos h1]

theorem heapAlloc_inv {n b : Word} {s t : State} (h : heapAlloc n s = .ok (b, t)) :
    0 ≤ sint n ∧ s.heap.len + (sint n).toNat ≤ s.heapCap ∧ b = wordOf s.heap.len ∧
      t = s.setHeap (s.heap.growTo (s.heap.len + (sint n).toNat)) := by
  rw [heapAlloc] at h
  split at h
  · cases h
  · split at h
    · cases h
    · cases h
      exact ⟨by omega, by omega, rfl, rfl⟩

/-- The effective capacities stay within what the word width allows (R4). -/
theorem State.memCap_le (s : State) : s.memCap ≤ 9223372036854775808 := by
  rw [State.memCap]
  split
  · exact le_refl _
  · exact Nat.min_le_right _ _

theorem State.heapCap_le (s : State) : s.heapCap ≤ 9223372036854775807 := by
  rw [State.heapCap]
  split
  · exact le_refl _
  · exact Nat.min_le_right _ _

/-! The end of the execute part. -/

@[simp] theorem settle_ok (s t : State) : settle s (.ok t) = .next t := rfl

@[simp] theorem settle_error (s : State) (f : FaultClass) : settle s (.error f) = .next (s.raise f) := rfl

/-- What a settled effect can be: its own state, or fault entry. -/
theorem settle_cases {s t : State} {e : Effect State} (h : settle s e = .next t) :
    e = .ok t ∨ ∃ f, e = .error f ∧ t = s.raise f := by
  cases e with
  | ok u => cases h; exact .inl rfl
  | error f => cases h; exact .inr ⟨f, rfl, rfl⟩

/-! The operand forms. -/

theorem binary_cons {f : Word → Word → Effect Word} {s : State} {a b : Word} {rest : List Word}
    (h : s.stack = a :: b :: rest) :
    binary f s = (f b a).bind fun r => push r (s.setStack rest) := by
  have hn : need 2 s = .ok () := need_ok (by simp [State.depth, h])
  simp [binary, hn, pop_cons h, pop_cons (State.setStack_stack s (b :: rest)), bind, Except.bind]

theorem binary_short {f : Word → Word → Effect Word} {s : State} (h : s.depth < 2) :
    binary f s = .error .stackUnderflow := by
  simp [binary, need_short h, bind, Except.bind]

theorem unary_cons {f : Word → Effect Word} {s : State} {a : Word} {rest : List Word} (h : s.stack = a :: rest) :
    unary f s = (f a).bind fun r => push r (s.setStack rest) := by
  have hn : need 1 s = .ok () := need_ok (by simp [State.depth, h])
  simp [unary, hn, pop_cons h, bind, Except.bind]

theorem unary_short {f : Word → Effect Word} {s : State} (h : s.depth < 1) :
    unary f s = .error .stackUnderflow := by
  simp [unary, need_short h, bind, Except.bind]

/-- A stack of depth at least 2 has a top and an element under it. -/
theorem stack_two {s : State} (h : 2 ≤ s.depth) : ∃ a b rest, s.stack = a :: b :: rest := by
  rcases hs : s.stack with _ | ⟨a, _ | ⟨b, rest⟩⟩
  · simp [State.depth, hs] at h
  · simp [State.depth, hs] at h
  · exact ⟨a, b, rest, rfl⟩

theorem stack_one {s : State} (h : 1 ≤ s.depth) : ∃ a rest, s.stack = a :: rest := by
  rcases hs : s.stack with _ | ⟨a, rest⟩
  · simp [State.depth, hs] at h
  · exact ⟨a, rest, rfl⟩

/-- A binary form that completes: its operands, the word it computed, and the state it left. -/
theorem binary_inv {f : Word → Word → Effect Word} {s t : State} (h : binary f s = .ok t) :
    ∃ a b rest r, s.stack = a :: b :: rest ∧ f b a = .ok r ∧ t = s.setStack (r :: rest) := by
  by_cases hd : s.depth < 2
  · rw [binary_short hd] at h; cases h
  · obtain ⟨a, b, rest, hs⟩ := stack_two (by omega : 2 ≤ s.depth)
    rw [binary_cons hs] at h
    cases hf : f b a with
    | error e => rw [hf] at h; cases h
    | ok r =>
      rw [hf] at h
      exact ⟨a, b, rest, r, hs, hf, push_inv h⟩

/-- A unary form that completes: its operand, the word it computed, and the state it left. -/
theorem unary_inv {f : Word → Effect Word} {s t : State} (h : unary f s = .ok t) :
    ∃ a rest r, s.stack = a :: rest ∧ f a = .ok r ∧ t = s.setStack (r :: rest) := by
  by_cases hd : s.depth < 1
  · rw [unary_short hd] at h; cases h
  · obtain ⟨a, rest, hs⟩ := stack_one (by omega : 1 ≤ s.depth)
    rw [unary_cons hs] at h
    cases hf : f a with
    | error e => rw [hf] at h; cases h
    | ok r =>
      rw [hf] at h
      exact ⟨a, rest, r, hs, hf, push_inv h⟩

/-- Fault entry leaves what R260 specifies. -/
theorem raises_raise (f : FaultClass) (s : State) : settle s (.error f) = .next (s.raise f) := rfl

end Sys2Proof.Machine
end

