-- ==== Sys2Proof/Laws/Exec.lean ====
section
/-! SUPPORT. What one instruction, and one step, can do, said once: an instruction raises a fault or has the effect `Ran` names. -/

namespace Sys2Proof.Machine

/-- `t` is what instruction `i` leaves of `s` where it raises no fault. Binary and unary forms: the word pushed is `r`. -/
def Ran (i : Instr) (s t : State) : Prop :=
  match i with
  | .ldc k => t = s.setStack (k :: s.stack)
  | .load => ∃ addr rest, s.stack = addr :: rest ∧ t = s.setStack (s.mem.get (sint addr).toNat :: rest)
  | .store => ∃ addr v rest, s.stack = addr :: v :: rest ∧ 0 ≤ sint addr ∧ (sint addr).toNat + 1 ≤ s.memCap ∧
      t = (s.setStack (v :: rest)).setMem (s.mem.write (sint addr).toNat v)
  | .pop => ∃ a rest, s.stack = a :: rest ∧ t = s.setStack rest
  | .alloc => ∃ n rest, s.stack = n :: rest ∧ 0 ≤ sint n ∧ s.heap.len + (sint n).toNat ≤ s.heapCap ∧
      t = (s.setStack (wordOf s.heap.len :: rest)).setHeap (s.heap.growTo (s.heap.len + (sint n).toNat))
  | .jmp k => t = s.setPc k
  | .jz k => ∃ v rest, s.stack = v :: rest ∧
      ((v = 0#64 ∧ t = (s.setStack rest).setPc k) ∨ (v ≠ 0#64 ∧ t = s.setStack rest))
  | .halt => t = s.setStatus .halted
  | .neg | .not => ∃ a rest r, s.stack = a :: rest ∧ t = s.setStack (r :: rest)
  | .add | .sub | .mul | .div | .mod | .and | .or | .eq | .ne | .lt | .le | .gt | .ge =>
      ∃ a b rest r, s.stack = a :: b :: rest ∧ t = s.setStack (r :: rest)

theorem settle_binary {f : Word → Word → Effect Word} {s t : State} (h : settle s (binary f s) = .next t) :
    (∃ c, t = s.raise c) ∨ ∃ a b rest r, s.stack = a :: b :: rest ∧ t = s.setStack (r :: rest) := by
  rcases settle_cases h with h | ⟨c, -, h⟩
  · obtain ⟨a, b, rest, r, hs, -, ht⟩ := binary_inv h
    exact .inr ⟨a, b, rest, r, hs, ht⟩
  · exact .inl ⟨c, h⟩

theorem settle_unary {f : Word → Effect Word} {s t : State} (h : settle s (unary f s) = .next t) :
    (∃ c, t = s.raise c) ∨ ∃ a rest r, s.stack = a :: rest ∧ t = s.setStack (r :: rest) := by
  rcases settle_cases h with h | ⟨c, -, h⟩
  · obtain ⟨a, rest, r, hs, -, ht⟩ := unary_inv h
    exact .inr ⟨a, rest, r, hs, ht⟩
  · exact .inl ⟨c, h⟩

/-- The head of a form that pops one element. -/
theorem pop_inv {s s₁ : State} {a : Word} (h : pop s = .ok (a, s₁)) :
    ∃ rest, s.stack = a :: rest ∧ s₁ = s.setStack rest := by
  rcases hs : s.stack with _ | ⟨b, rest⟩
  · simp [pop, hs] at h
  · rw [pop_cons hs] at h
    cases h
    exact ⟨rest, rfl, rfl⟩

theorem execLoad_cons {s : State} {addr : Word} {rest : List Word} (h : s.stack = addr :: rest) :
    execLoad s = settle s ((memRead addr (s.setStack rest)).bind fun v => push v (s.setStack rest)) := by
  have hn : need 1 s = .ok () := need_ok (by simp [State.depth, h])
  simp [execLoad, hn, pop_cons h, bind, Except.bind]

theorem execStore_cons {s : State} {addr v : Word} {rest : List Word} (h : s.stack = addr :: v :: rest) :
    execStore s = settle s (memWrite addr v (s.setStack (v :: rest))) := by
  have hn : need 2 s = .ok () := need_ok (by simp [State.depth, h])
  simp [execStore, hn, pop_cons h, top_cons (State.setStack_stack s (v :: rest)), bind, Except.bind]

theorem execAlloc_cons {s : State} {n : Word} {rest : List Word} (h : s.stack = n :: rest) :
    execAlloc s = settle s ((heapAlloc n (s.setStack rest)).bind fun p => push p.1 p.2) := by
  have hn : need 1 s = .ok () := need_ok (by simp [State.depth, h])
  simp [execAlloc, hn, pop_cons h, bind, Except.bind]

theorem execPop_cons {s : State} {a : Word} {rest : List Word} (h : s.stack = a :: rest) :
    execPop s = .next (s.setStack rest) := by
  have hn : need 1 s = .ok () := need_ok (by simp [State.depth, h])
  simp [execPop, hn, pop_cons h, bind, Except.bind]

theorem execJz_cons {k v : Word} {s : State} {rest : List Word} (h : s.stack = v :: rest) :
    execJz k s = .next (if v = 0#64 then (s.setStack rest).setPc k else s.setStack rest) := by
  have hn : need 1 s = .ok () := need_ok (by simp [State.depth, h])
  by_cases hv : v = 0#64 <;> simp [execJz, hn, pop_cons h, bind, Except.bind, isZero, hv]

/-- The forms that check for one element first, on the empty stack. -/
theorem exec_empty {s : State} (h : s.stack = []) :
    execLoad s = .next (s.raise .stackUnderflow) ∧ execPop s = .next (s.raise .stackUnderflow) ∧
    execAlloc s = .next (s.raise .stackUnderflow) ∧ ∀ k, execJz k s = .next (s.raise .stackUnderflow) := by
  have hn : need 1 s = .error .stackUnderflow := need_short (by simp [State.depth, h])
  simp [execLoad, execPop, execAlloc, execJz, hn, bind, Except.bind]

theorem execStore_short {s : State} (h : s.depth < 2) : execStore s = .next (s.raise .stackUnderflow) := by
  simp [execStore, need_short h, bind, Except.bind]

/-- A next state of an instruction is fault entry, or what `Ran` says. -/
theorem exec_cases {i : Instr} {s t : State} (h : exec i s = .next t) : (∃ c, t = s.raise c) ∨ Ran i s t := by
  cases i
  case ldc k =>
    rcases settle_cases h with h | ⟨c, -, h⟩
    · exact .inr (push_inv h)
    · exact .inl ⟨c, h⟩
  case load =>
    rcases hs : s.stack with _ | ⟨addr, rest⟩
    · simp [exec, (exec_empty hs).1] at h; exact .inl ⟨_, h.symm⟩
    · simp only [exec, execLoad_cons hs] at h
      rcases settle_cases h with h | ⟨c, -, h⟩
      · by_cases hr : sint addr < 0 ∨ s.mem.len ≤ (sint addr).toNat
        · rw [memRead_fault (s := s.setStack rest) hr] at h; cases h
        · rw [memRead_ok (s := s.setStack rest) (by omega) (by simp; omega)] at h
          exact .inr ⟨addr, rest, hs, push_inv h⟩
      · exact .inl ⟨c, h⟩
  case store =>
    by_cases hd : s.depth < 2
    · simp [exec, execStore_short hd] at h; exact .inl ⟨_, h.symm⟩
    · obtain ⟨addr, v, rest, hs⟩ := stack_two (by omega : 2 ≤ s.depth)
      simp only [exec, execStore_cons hs] at h
      rcases settle_cases h with h | ⟨c, -, h⟩
      · obtain ⟨h0, h1, ht⟩ := memWrite_inv h
        exact .inr ⟨addr, v, rest, hs, h0, h1, ht⟩
      · exact .inl ⟨c, h⟩
  case pop =>
    rcases hs : s.stack with _ | ⟨a, rest⟩
    · simp [exec, (exec_empty hs).2.1] at h; exact .inl ⟨_, h.symm⟩
    · simp only [exec, execPop_cons hs] at h
      cases h
      exact .inr ⟨a, rest, hs, rfl⟩
  case alloc =>
    rcases hs : s.stack with _ | ⟨n, rest⟩
    · simp [exec, (exec_empty hs).2.2.1] at h; exact .inl ⟨_, h.symm⟩
    · simp only [exec, execAlloc_cons hs] at h
      rcases settle_cases h with h | ⟨c, -, h⟩
      · cases ha : heapAlloc n (s.setStack rest) with
        | error e => rw [ha] at h; cases h
        | ok p =>
          obtain ⟨h0, h1, hb, hp⟩ := heapAlloc_inv ha
          rw [ha] at h
          have ht := push_inv h
          rw [hb, hp] at ht
          exact .inr ⟨n, rest, hs, h0, h1, ht⟩
      · exact .inl ⟨c, h⟩
  case jmp k => cases h; exact .inr rfl
  case jz k =>
    rcases hs : s.stack with _ | ⟨v, rest⟩
    · simp [exec, (exec_empty hs).2.2.2] at h; exact .inl ⟨_, h.symm⟩
    · simp only [exec, execJz_cons hs] at h
      cases h
      refine .inr ⟨v, rest, hs, ?_⟩
      by_cases hv : v = 0#64 <;> simp [hv]
  case halt => cases h; exact .inr rfl
  case neg => exact settle_unary h
  case not => exact settle_unary h
  all_goals exact settle_binary h

/-- A step that has a next state ran from Running: the fetch failed, the word was illegal, or the instruction was executed. -/
theorem step_cases {s t : State} (h : step s = .next t) :
    s.status = .running ∧
      ((¬s.pcInRange ∧ t = s.raise .fetchOutOfRange) ∨
       (s.pcInRange ∧ ∃ iw, s.prog[(sint s.pc).toNat]? = some iw ∧
         ((∃ r, decode iw = .error r ∧ t = (s.setPc (s.pc + 1#64)).raise .illegalInstruction) ∨
          (∃ i, decode iw = .ok i ∧ exec i (s.setPc (s.pc + 1#64)) = .next t)))) := by
  rw [step] at h
  split at h
  case h_2 => cases h
  case h_3 => cases h
  case h_1 hr =>
    refine ⟨hr, ?_⟩
    by_cases hp : s.pcInRange
    · have hlt : (sint s.pc).toNat < s.prog.length := by
        have := hp.1; have := hp.2; omega
      have hf : fetch s = some s.prog[(sint s.pc).toNat] := by
        rw [fetch, if_pos hp, List.getElem?_eq_getElem hlt]
      rw [hf] at h
      refine .inr ⟨hp, _, List.getElem?_eq_getElem hlt, ?_⟩
      cases hd : decode s.prog[(sint s.pc).toNat] with
      | error r => simp [hd] at h; exact .inl ⟨r, rfl, h.symm⟩
      | ok i => simp [hd] at h; exact .inr ⟨i, rfl, h⟩
    · rw [show fetch s = none from if_neg hp] at h
      cases h
      exact .inl ⟨hp, rfl⟩

end Sys2Proof.Machine
end

