-- ==== Sys2Proof/Laws/PerInstr.lean ====
section
/-! SUPPORT. Facts about every instruction as data, one lemma per constructor: the fields of its word (30_encoding.md R81, R82). -/

namespace Sys2Proof.Laws

/-- The word of an instruction holds its opcode in `op` and its immediate, or zeros, in `imm`. -/
def EncodedFields.Statement (i : Instr) : Prop :=
  opField (encode i) = i.opcode ∧ immField (encode i) = i.immediate

theorem EncodedFields.of (i : Instr) : EncodedFields.Statement i :=
  ⟨opField_append _ _, immField_append _ _⟩

theorem EncodedFields.ldc (k : Word) : EncodedFields.Statement (.ldc k) := EncodedFields.of _
theorem EncodedFields.load : EncodedFields.Statement .load := EncodedFields.of _
theorem EncodedFields.store : EncodedFields.Statement .store := EncodedFields.of _
theorem EncodedFields.pop : EncodedFields.Statement .pop := EncodedFields.of _
theorem EncodedFields.alloc : EncodedFields.Statement .alloc := EncodedFields.of _
theorem EncodedFields.jmp (k : Word) : EncodedFields.Statement (.jmp k) := EncodedFields.of _
theorem EncodedFields.jz (k : Word) : EncodedFields.Statement (.jz k) := EncodedFields.of _
theorem EncodedFields.halt : EncodedFields.Statement .halt := EncodedFields.of _
theorem EncodedFields.add : EncodedFields.Statement .add := EncodedFields.of _
theorem EncodedFields.sub : EncodedFields.Statement .sub := EncodedFields.of _
theorem EncodedFields.mul : EncodedFields.Statement .mul := EncodedFields.of _
theorem EncodedFields.div : EncodedFields.Statement .div := EncodedFields.of _
theorem EncodedFields.mod : EncodedFields.Statement .mod := EncodedFields.of _
theorem EncodedFields.and : EncodedFields.Statement .and := EncodedFields.of _
theorem EncodedFields.or : EncodedFields.Statement .or := EncodedFields.of _
theorem EncodedFields.eq : EncodedFields.Statement .eq := EncodedFields.of _
theorem EncodedFields.ne : EncodedFields.Statement .ne := EncodedFields.of _
theorem EncodedFields.lt : EncodedFields.Statement .lt := EncodedFields.of _
theorem EncodedFields.le : EncodedFields.Statement .le := EncodedFields.of _
theorem EncodedFields.gt : EncodedFields.Statement .gt := EncodedFields.of _
theorem EncodedFields.ge : EncodedFields.Statement .ge := EncodedFields.of _
theorem EncodedFields.neg : EncodedFields.Statement .neg := EncodedFields.of _
theorem EncodedFields.not : EncodedFields.Statement .not := EncodedFields.of _

end Sys2Proof.Laws
end

