-- ==== Sys2Proof/Laws/Run.lean ====
section
/-! SUPPORT. One equation per case of the two loops over the step, `after` and `runFor`. -/

namespace Sys2Proof.Machine

@[simp] theorem after_zero (s : State) : after 0 s = some s := rfl

theorem after_succ {s t : State} (h : step s = .next t) (n : Nat) : after (n + 1) s = after n t := by
  simp [after, h]

theorem runFor_zero {s : State} (h : s.status = .running) : runFor 0 s = none := by simp [runFor, h]

theorem runFor_succ {s t : State} (hr : s.status = .running) (h : step s = .next t) (n : Nat) :
    runFor (n + 1) s = runFor n t := by
  simp [runFor, hr, h]

/-- At rest the loop takes no step (R303). -/
theorem runFor_at_rest {s : State} (h : s.status ≠ .running) (n : Nat) : runFor n s = some s := by
  cases n <;> simp [runFor, h]

end Sys2Proof.Machine
end

