-- ==== Sys2Proof/Laws/WellFormed.lean ====
section
/-! SUPPORT. Paths of a program: what one can do next, and a check on a finite set of indices that shows a `halt` on every path. -/

namespace Sys2Proof

theorem flow_iff {p : List Instr} {i j : Nat} {x : Instr} (h : p[i]? = some x) : Flow p i j ↔ j ∈ x.successors i := by
  simp [Flow, h]

/-- No edge leaves the program. -/
theorem not_flow_past_end {p : List Instr} {i j : Nat} (h : p.length ≤ i) : ¬Flow p i j := by
  simp [Flow, List.getElem?_eq_none h]

/-- Every index of a path in a program with a `halt` on every path holds an instruction. -/
theorem HaltOnEveryPath.index_lt {p : List Instr} (h : HaltOnEveryPath p) {i : Nat} (hi : Path p 0 i) : i < p.length := by
  by_contra hn
  obtain ⟨j, hj, hh⟩ := h i hi
  rcases Relation.ReflTransGen.cases_head hj with rfl | ⟨k, hk, -⟩
  · rw [List.getElem?_eq_none (by omega)] at hh; cases hh
  · exact not_flow_past_end (by omega) hk

/-- A `halt` is at most `n` edges from `i`. -/
def leadsToHalt (p : List Instr) : Nat → Nat → Bool
  | 0, i => decide (p[i]? = some .halt)
  | n + 1, i =>
    match p[i]? with
    | none => false
    | some x => decide (x = .halt) || (x.successors i).any (leadsToHalt p n)

theorem leadsToHalt_path {p : List Instr} {n i : Nat} (h : leadsToHalt p n i = true) :
    ∃ j, Path p i j ∧ p[j]? = some .halt := by
  induction n generalizing i with
  | zero => exact ⟨i, .refl, by simpa [leadsToHalt] using h⟩
  | succ n ih =>
    cases hx : p[i]? with
    | none => simp [leadsToHalt, hx] at h
    | some x =>
      simp only [leadsToHalt, hx, Bool.or_eq_true, decide_eq_true_eq, List.any_eq_true] at h
      rcases h with rfl | ⟨k, hk, h⟩
      · exact ⟨i, .refl, hx⟩
      · obtain ⟨j, hj, hh⟩ := ih h
        exact ⟨j, .head ((flow_iff hx).2 hk) hj, hh⟩

/-- `is` holds 0 and every successor of its own, and from each of its indices a `halt` is at most `n` edges away. -/
def closedAndHalting (p : List Instr) (n : Nat) (is : List Nat) : Bool :=
  is.contains 0 && is.all fun i =>
    leadsToHalt p n i && ((p[i]?.map (Instr.successors i)).getD []).all fun j => is.contains j

theorem haltOnEveryPath_of_closed {p : List Instr} {n : Nat} {is : List Nat} (h : closedAndHalting p n is = true) :
    HaltOnEveryPath p := by
  simp only [closedAndHalting, Bool.and_eq_true, List.all_eq_true, List.contains_iff_mem] at h
  intro i hi
  have hm : i ∈ is := by
    induction hi with
    | refl => exact h.1
    | tail _ hf ih =>
      obtain ⟨x, hx, hj⟩ := hf
      exact (h.2 _ ih).2 _ (by simpa [hx] using hj)
  exact leadsToHalt_path (h.2 i hm).1

end Sys2Proof
end

