-- ==== Sys2Proof/Tests/Slice0.lean ====
section
/-! SUPPORT. The model's own tests. Expected results are those of spec/95_test_vectors.md (its part and row in each comment) or of
the rule named; words are written out from 30_encoding.md R81 and R84. Then a witness for the hypotheses of each statement. -/

namespace Sys2Proof.Tests

open Sys2Proof Sys2Proof.Machine

/-! Well-formedness: each check refuses an ill-formed term. -/

theorem test_target_at_plen_refused : targetInRange 10 10 = false ∧ targetInRange 10 9 = true := by decide
theorem test_negative_target_refused : targetInRange 10 (-1) = false ∧ targetInRange 10 0 = true := by decide
theorem test_jump_out_of_program_refused :
    Instr.wellFormedIn 10 (.jmp 10) = false ∧ Instr.wellFormedIn 10 (.jz (-1)) = false ∧ Instr.wellFormedIn 10 .add = true := by decide
theorem test_program_too_long_refused : lengthAllowed 9223372036854775808 = false ∧ lengthAllowed 9223372036854775807 = true := by decide
/-- R302: no `halt` at all, a fall past the end, and a target outside the program. -/
theorem test_loop_without_exit_refused : ¬HaltOnEveryPath [.jmp 0] := fun h => by
  obtain ⟨j, hj, hh⟩ := h 0 .refl
  have : j = 0 := by
    clear hh
    induction hj with
    | refl => rfl
    | tail _ hf ih => subst ih; simpa [Flow, Instr.successors, Instr.target, Instr.endsPath, targetIndices, sint] using hf
  subst this
  simp at hh
theorem test_open_end_refused : ¬HaltOnEveryPath [.ldc 7] ∧ ¬HaltOnEveryPath [] :=
  ⟨fun h => absurd (h.index_lt (.single ⟨.ldc 7, rfl, by decide⟩ : Path [.ldc 7] 0 1)) (by decide),
   fun h => absurd (h.index_lt .refl) (by decide)⟩
theorem test_target_outside_refused : ¬ProgramWellFormed [.jmp 2, .halt] := fun h => absurd h.targets_in_range (by decide)
/-- Every path halts, though the last instruction is no `halt`. -/
theorem test_code_after_halt_accepted : ProgramWellFormed [.halt, .pop] :=
  ⟨by decide, by decide, haltOnEveryPath_of_closed (n := 0) (is := [0]) (by decide)⟩
/-- 95, P2: a loop that ends Halted. -/
theorem test_loop_of_95_P2_accepted : ProgramWellFormed
    [.ldc 3, .ldc 0, .store, .pop, .ldc 0, .ldc 1, .store, .pop, .ldc 0, .load, .jz 27, .ldc 1, .load, .ldc 0, .load, .add,
     .ldc 1, .store, .pop, .ldc 0, .load, .ldc 1, .sub, .ldc 0, .store, .pop, .jmp 8, .ldc 1, .load, .halt] :=
  ⟨by decide, by decide, haltOnEveryPath_of_closed (n := 29) (is := List.range 30) (by decide)⟩

/-! Decoding: every constructor from its word (R84), and the illegal words of 95 part 2.1. -/

theorem test_decode_stack : decode 0x800000000000000000 = .ok (.ldc (BitVec.ofInt 64 (-9223372036854775808))) ∧
    decode 0x000000000000000700 = .ok (.ldc 7) ∧ decode 0x000000000000000000 = .ok (.ldc 0) ∧
    decode 0xFFFFFFFFFFFFFFFF00 = .ok (.ldc (-1)) ∧ decode 0x000000000000000003 = .ok .pop := by decide
theorem test_decode_memory : decode 0x000000000000000001 = .ok .load ∧ decode 0x000000000000000002 = .ok .store ∧
    decode 0x000000000000000004 = .ok .alloc := by decide
theorem test_decode_control : decode 0x000000000000000805 = .ok (.jmp 8) ∧ decode 0x000000000000001B06 = .ok (.jz 27) ∧
    decode 0xFFFFFFFFFFFFFFFF06 = .ok (.jz (-1)) ∧ decode 0x000000000000000007 = .ok .halt := by decide
theorem test_decode_arithmetic : decode 0x000000000000000008 = .ok .add ∧ decode 0x000000000000000009 = .ok .sub ∧
    decode 0x00000000000000000A = .ok .mul ∧ decode 0x00000000000000000B = .ok .div ∧ decode 0x00000000000000000C = .ok .mod ∧
    decode 0x000000000000000015 = .ok .neg := by decide
theorem test_decode_logic : decode 0x00000000000000000D = .ok .and ∧ decode 0x00000000000000000E = .ok .or ∧
    decode 0x000000000000000016 = .ok .not := by decide
theorem test_decode_compare : decode 0x00000000000000000F = .ok .eq ∧ decode 0x000000000000000010 = .ok .ne ∧
    decode 0x000000000000000011 = .ok .lt ∧ decode 0x000000000000000012 = .ok .le ∧ decode 0x000000000000000013 = .ok .gt ∧
    decode 0x000000000000000014 = .ok .ge := by decide
theorem test_decode_illegal : decode 0x000000000000000017 = .error (.undefinedOpcode 0x17) ∧
    decode 0x0000000000000000FF = .error (.undefinedOpcode 0xFF) ∧ decode 0x000000000000000107 = .error (.reservedImmediate 0x07) ∧
    decode 0x000000000000000108 = .error (.reservedImmediate 0x08) ∧ decode 0x800000000000000003 = .error (.reservedImmediate 0x03) ∧
    decode 0x000000000000000117 = .error (.undefinedOpcode 0x17) := by decide
/-- R89: the bytes of `jz -1`; 95 part 1, S1: the bytes of `ldc 7`; an incomplete word is rejected. -/
theorem test_bytes : toBytes (encode (.jz (-1))) = [0x06, 0xFF, 0xFF, 0xFF, 0xFF, 0xFF, 0xFF, 0xFF, 0xFF] ∧
    decodeBytes [0x00, 0x07, 0, 0, 0, 0, 0, 0, 0, 0x07] = .ok (.ldc 7, [0x07]) ∧
    decodeBytes [0x07, 0, 0, 0, 0, 0, 0, 0] = .error (.truncated 8) ∧ imageProgram [0x07, 0] = none := by decide
theorem test_table_words : decodeTableWord 72 0x1B06 = some (.jz 27) ∧ decodeTableWord 72 0x107 = none ∧
    decodeTableWord 8 0x107 = some .halt ∧ decodeTableWord 80 0x07 = none := by decide
/-- R90: label, mnemonic, signed operand, comment; and the three assembly errors. -/
theorem test_assembly :
    assembleLine 3 ['3', ':', ' ', 'j', 'z', ' ', '-', '1', ' ', ';', 'x'] = some (.jz (-1)) ∧
    assembleLine 3 ['4', ':', ' ', 'p', 'o', 'p'] = none ∧ assembleLine 0 ['p', 'o', 'p', ' ', '1'] = none ∧
    assembleLine 0 ['l', 'd', 'c'] = none ∧
    assemble [['l', 'd', 'c', ' ', '7'], ['h', 'a', 'l', 't']] = some [0x000000000000000700, 0x000000000000000007] := by decide

/-! One step of one instruction (95 part 2). `one w l` is a running engine whose program is the word `w` and whose stack is `l`,
top first. -/

def one (w : IWord) (l : List Word) : State := { State.reset with prog := [w], stack := l }
def stackAfter (s : State) : Option (List Word) := (after 1 s).map (·.stack)
def causeAfter (s : State) : Option (BitVec 3 × BitVec 2 × Word) := (after 1 s).map fun t => (causeCode t.cause, t.status.code, t.pc)
def minW : Word := BitVec.ofInt 64 (-9223372036854775808)
def maxW : Word := BitVec.ofInt 64 9223372036854775807
/-- `M = [5, 0, 9]`. -/
def mem509 : Memory := { len := 3, cells := [(0, 5), (2, 9)] }

theorem test_ldc : stackAfter (one 0xFFFFFFFFFFFFFFFF00 [7]) = some [-1, 7] := by decide
theorem test_ldc_full : causeAfter { one 0x000 [7] with caps := { stack := some 1, mem := none, heap := none } } = some (7, 2, 1) := by decide
theorem test_pop : stackAfter (one 0x03 [0, 2]) = some [2] := by decide
theorem test_pop_empty : causeAfter (one 0x03 []) = some (1, 2, 1) := by decide
theorem test_load : stackAfter { one 0x01 [1] with mem := mem509 } = some [0] ∧ stackAfter { one 0x01 [2] with mem := mem509 } = some [9] := by decide
theorem test_load_past_length : causeAfter { one 0x01 [3] with mem := mem509 } = some (5, 2, 1) := by decide
theorem test_store_grows : (after 1 (one 0x02 [2, 7])).map (fun t => (t.stack, t.mem)) = some ([7], { len := 3, cells := [(2, 7)] }) := by decide
theorem test_store_checks : causeAfter (one 0x02 [-1]) = some (1, 2, 1) ∧ causeAfter (one 0x02 [-1, 5]) = some (5, 2, 1) ∧
    causeAfter { one 0x02 [4, 5] with caps := { stack := none, mem := some 4, heap := none } } = some (7, 2, 1) := by decide
theorem test_alloc : (after 1 { one 0x04 [3, 0] with heap := { len := 4, cells := [] } }).map (fun t => (t.stack, t.heap.len)) = some ([4, 0], 7) := by decide
theorem test_alloc_checks : causeAfter (one 0x04 [-1]) = some (5, 2, 1) ∧
    causeAfter { one 0x04 [maxW] with heap := { len := 1, cells := [] } } = some (7, 2, 1) ∧
    (after 1 (one 0x04 [maxW])).map (·.heap.len) = some 9223372036854775807 := by decide
theorem test_jmp_unchecked : (after 1 (one 0xFFFFFFFFFFFFFFFF05 [1])).map (fun t => (t.pc, t.stack)) = some (-1, [1]) := by decide
theorem test_jz_taken : (after 1 (one 0x0000000000000906 [0, 5])).map (fun t => (t.pc, t.stack)) = some (9, [5]) := by decide
theorem test_jz_not_taken : (after 1 (one 0xFFFFFFFFFFFFFFFF06 [-1])).map (fun t => (t.pc, t.stack)) = some (1, []) := by decide
theorem test_halt : (after 1 (one 0x07 [8])).map (fun t => (t.status, t.pc, t.stack)) = some (.halted, 1, [8]) := by decide
theorem test_add : stackAfter (one 0x08 [3, 2, 9]) = some [5, 9] ∧ stackAfter (one 0x08 [minW, maxW]) = some [-1] := by decide
theorem test_add_overflow : causeAfter (one 0x08 [1, maxW]) = some (4, 2, 1) ∧ causeAfter (one 0x08 [3]) = some (1, 2, 1) := by decide
theorem test_sub_order : stackAfter (one 0x09 [3, 10]) = some [7] ∧ stackAfter (one 0x09 [minW, -1]) = some [maxW] := by decide
theorem test_sub_overflow : causeAfter (one 0x09 [minW, 0]) = some (4, 2, 1) := by decide
theorem test_mul : stackAfter (one 0x0A [3037000499, 3037000499]) = some [9223372030926249001] := by decide
theorem test_mul_overflow : causeAfter (one 0x0A [3037000500, 3037000500]) = some (4, 2, 1) ∧ causeAfter (one 0x0A [-1, minW]) = some (4, 2, 1) := by decide
theorem test_div : stackAfter (one 0x0B [2, -7]) = some [-3] ∧ stackAfter (one 0x0B [-2, 7]) = some [-3] ∧ stackAfter (one 0x0B [minW, minW]) = some [1] := by decide
theorem test_div_faults : causeAfter (one 0x0B [0, 0]) = some (3, 2, 1) ∧ causeAfter (one 0x0B [-1, minW]) = some (4, 2, 1) ∧
    causeAfter (one 0x0B [0]) = some (1, 2, 1) := by decide
theorem test_mod : stackAfter (one 0x0C [2, -7]) = some [-1] ∧ stackAfter (one 0x0C [-2, 7]) = some [1] ∧ stackAfter (one 0x0C [maxW, minW]) = some [-1] := by decide
theorem test_mod_faults : causeAfter (one 0x0C [0, 1]) = some (3, 2, 1) ∧ causeAfter (one 0x0C [-1, minW]) = some (4, 2, 1) := by decide
theorem test_neg : stackAfter (one 0x15 [maxW]) = some [-9223372036854775807] := by decide
theorem test_neg_min : causeAfter (one 0x15 [minW]) = some (4, 2, 1) := by decide
theorem test_and : stackAfter (one 0x0D [1, 1, 9]) = some [1, 9] ∧ stackAfter (one 0x0D [1, 2]) = some [0] ∧ stackAfter (one 0x0D [3, 3]) = some [0] := by decide
theorem test_or : stackAfter (one 0x0E [0, 2]) = some [0] ∧ stackAfter (one 0x0E [1, 2]) = some [1] ∧ stackAfter (one 0x0E [2, 1]) = some [1] := by decide
theorem test_not : stackAfter (one 0x16 [7]) = some [1] ∧ stackAfter (one 0x16 [1]) = some [0] ∧ stackAfter (one 0x16 [0]) = some [1] := by decide
theorem test_eq : stackAfter (one 0x0F [4, 4]) = some [1] ∧ stackAfter (one 0x0F [minW, maxW]) = some [0] := by decide
theorem test_ne : stackAfter (one 0x10 [4, 4]) = some [0] ∧ stackAfter (one 0x10 [minW, maxW]) = some [1] := by decide
theorem test_lt : stackAfter (one 0x11 [0, -1]) = some [1] ∧ stackAfter (one 0x11 [-1, 0]) = some [0] ∧ stackAfter (one 0x11 [3, 3]) = some [0] := by decide
theorem test_le : stackAfter (one 0x12 [3, 3]) = some [1] ∧ stackAfter (one 0x12 [-1, 0]) = some [0] := by decide
theorem test_gt : stackAfter (one 0x13 [-1, 0]) = some [1] ∧ stackAfter (one 0x13 [3, 3]) = some [0] := by decide
theorem test_ge : stackAfter (one 0x14 [3, 3]) = some [1] ∧ stackAfter (one 0x14 [3, 2]) = some [0] := by decide
/-- 95 part 2.4: the fetch checks, and no step in a terminal state. -/
theorem test_fetch : causeAfter State.reset = some (2, 2, 0) ∧ causeAfter { one 0x07 [] with pc := 1 } = some (2, 2, 1) ∧
    causeAfter { one 0x07 [] with pc := -1 } = some (2, 2, -1) ∧ causeAfter (one 0x17 []) = some (6, 2, 1) ∧
    after 1 { one 0x07 [] with status := .halted } = none := by decide
/-- 95 part 3, P7 and S2: Construct, Run, Inspect. -/
theorem test_transactions :
    ((construct [0x100, 0x000, 0x00B, 0x007] State.reset).bind (run 4)) = some (2, 3) ∧
    ((construct [0x200, 0x200, 0x00B, 0x007] State.reset).bind (runFor 4)).bind inspect =
      some { status := 1, cause := 0, pc := 4, stack := [1], mem := Memory.empty, hlen := 0 } := by decide
theorem test_fetch_word : (State.withFetchWord { State.reset with status := .faulted, pc := 2 } 72 0x107).prog = [0, 0, 0x107] ∧
    (State.withFetchWord { State.reset with pc := -1 } 72 0x07).pc = 0 := by decide

/-! Witnesses: concrete states and operands that meet the hypotheses of each statement that has any, clause by clause. -/

/-- The witnesses' stack is at a capacity of 3, met with two or three elements. -/
def caps3 : Capacities := { stack := some 3, mem := some 4, heap := some 7 }
def full (w : IWord) (l : List Word) : State := { one w l with caps := caps3 }

theorem within3 {s : State} (h : s.caps = caps3) (hd : s.depth ≤ 3) : s.stackWithinCap := by
  intro n hn
  rw [h] at hn
  cases hn
  exact hd

theorem witness_ConstructLeavesResetValues : (List.replicate plenMax (0x07#72)).length ≤ plenMax ∧ ([] : List IWord).length ≤ plenMax :=
  ⟨le_of_eq List.length_replicate, Nat.zero_le _⟩
theorem witness_ConstructForgetsTheEarlierState : ∃ t v : State, (one 0x07 [1]).caps = (one 0x08 [2]).caps ∧
    construct [0x07] (one 0x07 [1]) = some t ∧ construct [0x07] { one 0x08 [2] with status := .faulted } = some v :=
  ⟨_, _, rfl, rfl, rfl⟩
theorem witness_RunReturnsSuccessOrTypedFailure : (one 0x07 []).status = .running ∧ (one 0x07 []).cause = none ∧
    run 1 (one 0x07 []) = some (1, 0) ∧ run 1 (one 0x08 []) = some (2, 1) ∧ run 2 (one 0x00 []) = some (2, 2) ∧
    { one 0x07 [] with status := .halted }.status ≠ .running := by decide
/-- Both sides of the equivalence: a run that has ended, after one step, and one that has not. -/
theorem witness_RunStopsAtTheFirstStateNotRunning : ∃ t, runFor 9 (one 0x07 []) = some t ∧ after 1 (one 0x07 []) = some t ∧
    t.status ≠ .running ∧ runFor 9 (one 0x05 []) = none := ⟨_, rfl, rfl, by decide, rfl⟩
theorem witness_JumpToItselfNeverEnds : (one 0x05 []).status = .running ∧ (one 0x05 []).pcInRange ∧
    (one 0x05 []).prog[(sint (one 0x05 []).pc).toNat]? = some 0x05 ∧ decode 0x05 = .ok (.jmp (one 0x05 []).pc) := by decide
theorem witness_InspectShowsTheEndState : (one 0x07 []).status = .running ∧
    { one 0x07 [5, 6] with status := .halted, mem := mem509 }.status ≠ .running ∧
    0 < { one 0x07 [5, 6] with status := .halted, mem := mem509 }.depth ∧ 2 < mem509.len ∧ mem509.len ≤ 3 := by decide
theorem witness_EnginesShareNothing : ∃ fs, stepEngine 1 [one 0x08 [], one 0x07 []] = some fs ∧ 0 ≠ 1 := ⟨_, rfl, by decide⟩
/-- op 0x17, `halt` with imm 1, and the legal word 0x16 beside them. -/
theorem witness_IllegalWordsRaiseIllegalInstruction : (one 0x17 []).status = .running ∧ (one 0x17 []).pcInRange ∧
    (one 0x17 []).prog[(sint (one 0x17 []).pc).toNat]? = some 0x17 ∧ decode 0x17 = .error (.undefinedOpcode 0x17) ∧
    (one 0x107 []).pcInRange ∧ decode 0x107 = .error (.reservedImmediate 7) ∧ decode 0x16 = .ok .not := by decide
theorem witness_EncodeOfDecode : decode 0x1B06 = .ok (.jz 27) := by decide
/-- An operand at MAX, one past it, one that is no decimal, and digits. -/
theorem witness_AssemblyTakesTheOperandOfTheFormat :
    signedDecimal ['9', '2', '2', '3', '3', '7', '2', '0', '3', '6', '8', '5', '4', '7', '7', '5', '8', '0', '7'] = some 9223372036854775807 ∧
    fitsWord 9223372036854775807 ∧
    signedDecimal ['9', '2', '2', '3', '3', '7', '2', '0', '3', '6', '8', '5', '4', '7', '7', '5', '8', '0', '8'] = some 9223372036854775808 ∧
    ¬fitsWord 9223372036854775808 ∧ signedDecimal ['7', 'x'] = none ∧ [9, 0].map Nat.digitChar = ['9', '0'] := by decide
theorem witness_StepRunsTheDecodedInstruction : (one 0x07 []).status = .running ∧ (one 0x07 []).pcInRange ∧
    (one 0x07 []).prog[(sint (one 0x07 []).pc).toNat]? = some 0x07 ∧ decode 0x07 = .ok .halt ∧
    (one 0xFF []).pcInRange ∧ decode 0xFF = .error (.undefinedOpcode 0xFF) := by decide
/-- `pc` at 0 and PLEN - 1 (here the same), at PLEN, and at -1. -/
theorem witness_FetchIsBoundChecked : 0 ≤ sint (one 0x07 []).pc ∧ sint (one 0x07 []).pc < (one 0x07 []).prog.length ∧
    { one 0x07 [] with pc := 1 }.status = .running ∧ { one 0x07 [] with pc := 1 }.prog.length ≤ sint { one 0x07 [] with pc := 1 }.pc ∧
    sint { one 0x07 [] with pc := -1 }.pc < 0 := by decide
/-- One instruction that is no jump, `jmp`, `jz` taken and `jz` not taken. -/
theorem witness_PcAdvancesUnlessAJumpWritesIt : ∃ t u v w, step (one 0x03 [7]) = .next t ∧ t.status ≠ .faulted ∧
    step (one 0x905 []) = .next u ∧ u.status ≠ .faulted ∧ step (one 0x906 [0]) = .next v ∧ v.status ≠ .faulted ∧
    step (one 0x906 [1]) = .next w ∧ w.status ≠ .faulted ∧ (one 0x03 [7]).pcInRange ∧ (one 0x03 [7]).prog.length ≤ plenMax ∧
    decode 0x03 = .ok .pop ∧ decode 0x905 = .ok (.jmp 9) ∧ decode 0x906 = .ok (.jz 9) :=
  ⟨_, _, _, _, rfl, by decide, rfl, by decide, rfl, by decide, rfl, by decide, by decide, by decide, by decide, by decide, by decide⟩
theorem witness_NoStepWritesTheProgramStore : ∃ t, step (one 0x02 [0, 7]) = .next t ∧ t.status ≠ .faulted := ⟨_, rfl, by decide⟩
theorem witness_OnlyHaltEndsInSuccess : ∃ t u, step (one 0x07 []) = .next t ∧ t.status = .halted ∧ step (one 0x00 []) = .next u ∧
    u.status ≠ .halted := ⟨_, _, rfl, by decide, rfl, by decide⟩
/-- A failed fetch, an illegal word and a fault of an instruction. -/
theorem witness_FaultingStepLeavesPc : ∃ t u v, step State.reset = .next t ∧ t.status = .faulted ∧ step (one 0x17 []) = .next u ∧
    u.status = .faulted ∧ step (one 0x08 []) = .next v ∧ v.status = .faulted := ⟨_, _, _, rfl, rfl, rfl, rfl, rfl, rfl⟩
theorem witness_UnderflowExactlyWhenTooShallow : (one 0x02 [5]).status = .running ∧ (one 0x02 [5]).depth < Instr.store.needs ∧
    ¬(one 0x02 [5, 6]).depth < Instr.store.needs := by decide
theorem witness_DivisionFaultExactlyOnZeroDivisor : (one 0x0B [0, 7]).status = .running ∧
    ∃ b rest, (one 0x0B [0, 7]).stack = 0#64 :: b :: rest := ⟨by decide, 7, [], rfl⟩
theorem witness_OverflowFaultExactlyWhenTheResultDoesNotFit : (one 0x08 [1, maxW]).status = .running ∧
    ¬fitsWord (sint maxW + sint 1) ∧ ¬fitsWord (sint minW - sint 1) ∧ ¬fitsWord (sint maxW * sint 2) ∧ sint minW = wordMin := by decide
theorem witness_MemoryFaultExactlyOnBadOperand : ({ one 0x01 [3] with mem := mem509 } : State).status = .running ∧
    (mem509.len : Int) ≤ sint 3 ∧ sint (-1) < 0 := by decide
theorem witness_CapacityFaultExactlyOnGrowthPastACapacity : (full 0x00 [1, 2, 3]).status = .running ∧
    (full 0x00 [1, 2, 3]).stackWithinCap ∧ (full 0x00 [1, 2, 3]).caps.stack = some (full 0x00 [1, 2, 3]).depth ∧
    ((full 0x02 [4, 2]).memCap : Int) < sint 4 + 1 ∧ ((full 0x04 [8]).heapCap : Int) < (full 0x04 [8]).heap.len + sint 8 :=
  ⟨rfl, within3 rfl (by decide), by decide, by decide, by decide⟩
theorem witness_LdcPushesItsConstant : (full 0x00 [1, 2]).caps.stack ≠ some (full 0x00 [1, 2]).depth ∧
    (full 0x00 [1, 2, 3]).caps.stack = some (full 0x00 [1, 2, 3]).depth := by decide
theorem witness_PopRemovesTheTop : (one 0x03 [2]).stack = 2 :: [] ∧ (one 0x03 []).stack = [] := by decide
/-- Addresses 0 and mlen - 1, then mlen and -1. -/
theorem witness_LoadReadsVariableMemory : (full 0x01 [0, 1, 2]).stackWithinCap ∧ (full 0x01 [0, 1, 2]).stack = 0 :: [1, 2] ∧
    (0 ≤ sint 0 ∧ sint 0 < mem509.len) ∧ (0 ≤ sint 2 ∧ sint 2 < mem509.len) ∧ (mem509.len : Int) ≤ sint 3 ∧ sint (-1) < 0 :=
  ⟨within3 rfl (by decide), by decide, by decide, by decide, by decide, by decide⟩
/-- Addresses 0 and MEM_CAP - 1, then MEM_CAP and -1, and one element. -/
theorem witness_StoreWritesOneWordAndZeroFills : (full 0x02 [3, 7]).mem.wf = true ∧ (full 0x02 [3, 7]).stack = 3 :: 7 :: [] ∧
    (0 ≤ sint 3 ∧ sint 3 + 1 ≤ (full 0x02 [3, 7]).memCap) ∧ (0 ≤ sint 0 ∧ sint 0 + 1 ≤ (full 0x02 [0, 7]).memCap) ∧
    (0 ≤ sint 4 ∧ (full 0x02 [4, 7]).memCap < sint 4 + 1) ∧ sint (-1) < 0 ∧ (full 0x02 [3]).depth < 2 := by decide
/-- Lengths 0 and HEAP_CAP - hlen, then one more, -1, and the empty stack. -/
theorem witness_AllocReturnsTheOldLengthAndGrows : (full 0x04 [7]).stackWithinCap ∧ (full 0x04 [7]).heap.wf = true ∧
    (full 0x04 [7]).stack = 7 :: [] ∧ (0 ≤ sint 7 ∧ (full 0x04 [7]).heap.len + sint 7 ≤ (full 0x04 [7]).heapCap) ∧
    (0 ≤ sint 0 ∧ (full 0x04 [0]).heap.len + sint 0 ≤ (full 0x04 [0]).heapCap) ∧
    (0 ≤ sint 8 ∧ (full 0x04 [8]).heapCap < (full 0x04 [8]).heap.len + sint 8) ∧ sint (-1) < 0 ∧ (full 0x04 []).stack = [] :=
  ⟨within3 rfl (by decide), by decide, by decide, by decide, by decide, by decide, by decide, by decide⟩
theorem witness_StoreThenLoadYieldsTheValue : ∃ t u, (full 0x02 [2, 7]).mem.wf = true ∧ (full 0x02 [2, 7]).stackWithinCap ∧
    (full 0x02 [2, 7]).stack = 2 :: 7 :: [] ∧ exec .store (full 0x02 [2, 7]) = .next t ∧ t.status ≠ .faulted ∧
    exec (.ldc 2) t = .next u ∧ u.status ≠ .faulted :=
  ⟨_, _, by decide, within3 rfl (by decide), by decide, rfl, by decide, rfl, by decide⟩
theorem witness_JzJumpsExactlyOnZero : (one 0x06 [0]).stack = 0#64 :: [] ∧ (one 0x06 [1]).stack = 1 :: [] ∧ (1 : Word) ≠ 0#64 ∧
    (one 0x06 []).stack = [] := by decide
/-- For `add`, `sub`, `mul`: a result at MAX, one past it, and one element. -/
theorem witness_AddIsExactOrFaults : (full 0x08 [0, maxW]).stackWithinCap ∧ (full 0x08 [0, maxW]).stack = 0 :: maxW :: [] ∧
    fitsWord (sint maxW + sint 0) ∧ ¬fitsWord (sint maxW + sint 1) ∧ (full 0x08 [3]).depth < 2 :=
  ⟨within3 rfl (by decide), by decide, by decide, by decide, by decide⟩
theorem witness_SubIsExactOrFaults : (full 0x09 [0, minW]).stackWithinCap ∧ (full 0x09 [0, minW]).stack = 0 :: minW :: [] ∧
    fitsWord (sint minW - sint 0) ∧ ¬fitsWord (sint minW - sint 1) ∧ (full 0x09 [3]).depth < 2 :=
  ⟨within3 rfl (by decide), by decide, by decide, by decide, by decide⟩
theorem witness_MulIsExactOrFaults : (full 0x0A [1, minW]).stackWithinCap ∧ (full 0x0A [1, minW]).stack = 1 :: minW :: [] ∧
    fitsWord (sint minW * sint 1) ∧ ¬fitsWord (sint minW * sint (-1)) ∧ (full 0x0A [3]).depth < 2 :=
  ⟨within3 rfl (by decide), by decide, by decide, by decide, by decide⟩
/-- For `div`, `mod` and their law: a zero divisor, MIN with -1, MIN with 1, MIN + 1 with -1, and one element. -/
theorem witness_DivTruncatesTowardZero : (full 0x0B [1, minW]).stackWithinCap ∧ (full 0x0B [1, minW]).stack = 1 :: minW :: [] ∧
    sint 0 = 0 ∧ (sint minW = wordMin ∧ sint (-1) = -1) ∧ (sint 1 ≠ 0 ∧ ¬(sint minW = wordMin ∧ sint 1 = -1)) ∧
    (sint (-1) ≠ 0 ∧ ¬(sint (minW + 1) = wordMin ∧ sint (-1) = -1)) ∧ (full 0x0B [3]).depth < 2 :=
  ⟨within3 rfl (by decide), by decide, by decide, by decide, by decide, by decide, by decide⟩
theorem witness_ModIsTheTruncatedRemainder : (full 0x0C [2, -7]).stackWithinCap ∧ (full 0x0C [2, -7]).stack = 2 :: (-7) :: [] ∧
    sint 0 = 0 ∧ (sint minW = wordMin ∧ sint (-1) = -1) ∧ (sint 2 ≠ 0 ∧ ¬(sint (-7) = wordMin ∧ sint 2 = -1)) ∧
    (full 0x0C [3]).depth < 2 :=
  ⟨within3 rfl (by decide), by decide, by decide, by decide, by decide, by decide⟩
theorem witness_QuotientAndRemainderObeyTheDivisionLaw : (full 0x0B [-2, 7]).stackWithinCap ∧ (full 0x0B [-2, 7]).stack = (-2) :: 7 :: [] ∧
    (sint (-2) ≠ 0 ∧ ¬(sint 7 = wordMin ∧ sint (-2) = -1)) ∧ sint 0 = 0 ∧ (sint minW = wordMin ∧ sint (-1) = -1) :=
  ⟨within3 rfl (by decide), by decide, by decide, by decide, by decide⟩
/-- Same signs, both ways, and mixed signs with an exact quotient. -/
theorem witness_DivisionAgreesWithFlooringOffMixedSigns : (full 0x0B [2, 7]).stackWithinCap ∧ (full 0x0B [2, 7]).stack = 2 :: 7 :: [] ∧
    sint 2 ≠ 0 ∧ ¬(sint 7 = wordMin ∧ sint 2 = -1) ∧ (0 ≤ sint 2 ∧ 0 ≤ sint 7) ∧ (sint (-2) ≤ 0 ∧ sint (-7) ≤ 0) ∧ sint 3 ∣ sint (-6) :=
  ⟨within3 rfl (by decide), by decide, by decide, by decide, by decide, by decide, by decide⟩
theorem witness_NegFaultsOnlyAtMin : (full 0x15 [maxW]).stackWithinCap ∧ (full 0x15 [maxW]).stack = maxW :: [] ∧ sint maxW ≠ wordMin ∧
    sint (minW + 1) ≠ wordMin ∧ sint minW = wordMin ∧ (full 0x15 []).stack = [] :=
  ⟨within3 rfl (by decide), by decide, by decide, by decide, by decide, by decide⟩
theorem witness_LogicTreatsOnlyTheWordOneAsTrue : (full 0x0D [1, 2]).stackWithinCap ∧ (full 0x0D [1, 2]).stack = 1 :: 2 :: [] ∧
    (full 0x16 [7]).stack = 7 :: [] ∧ (full 0x0D [1]).depth < 2 ∧ (full 0x16 []).stack = [] :=
  ⟨within3 rfl (by decide), by decide, by decide, by decide, by decide⟩
theorem witness_ComparisonsAreSigned : (full 0x11 [0, -1]).stackWithinCap ∧ (full 0x11 [0, -1]).stack = 0 :: (-1) :: [] ∧
    (full 0x11 [0]).depth < 2 ∧ Instr.ge ∈ [Instr.eq, .ne, .lt, .le, .gt, .ge] :=
  ⟨within3 rfl (by decide), by decide, by decide, by decide⟩
theorem witness_ComparisonsSplitEveryPair : (full 0x11 [3, 3]).stackWithinCap ∧ (full 0x11 [3, 3]).stack = 3 :: 3 :: [] :=
  ⟨within3 rfl (by decide), by decide⟩
theorem witness_NetDepthChangeIsPushesMinusPops : ∃ t, exec .add (one 0x08 [3, 2]) = .next t ∧ t.status ≠ .faulted ∧
    (one 0x08 [3]).depth < Instr.add.needs := ⟨_, rfl, by decide, by decide⟩
theorem witness_StackBelowTheOperandsIsUntouched : ∃ t, exec .store (one 0x02 [0, 7, 9]) = .next t ∧ t.status ≠ .faulted :=
  ⟨_, rfl, by decide⟩
/-- A `store`, a `halt` and a `jmp`, each with a next state and no fault. -/
theorem witness_EveryInstructionKeepsItsFrame : ∃ t u v, exec .store (one 0x02 [0, 7]) = .next t ∧ t.status ≠ .faulted ∧
    (one 0x02 [0, 7]).stack = 0 :: 7 :: [] ∧ 1 ≠ (sint 0).toNat ∧ exec .halt (one 0x07 []) = .next u ∧ u.status ≠ .faulted ∧
    exec (.jmp 4) (one 0x405 []) = .next v ∧ v.status ≠ .faulted :=
  ⟨_, _, _, rfl, by decide, rfl, by decide, rfl, by decide, rfl, by decide⟩
theorem witness_StorageNeverShrinks : ∃ t, step (one 0x02 [5, 7]) = .next t ∧ t.status ≠ .faulted := ⟨_, rfl, by decide⟩
theorem witness_HeapAndMemoryAreSeparate : ∃ t, exec .neg (one 0x15 [5]) = .next t ∧ t.status ≠ .faulted := ⟨_, rfl, by decide⟩

theorem sound_one : (one 0x07 []).Sound :=
  { prog_length := by decide
    stack_within := fun _ h => by cases h
    mem_wf := rfl
    mem_within := by decide
    heap_wf := rfl
    heap_within := by decide
    cause_iff := by decide }

theorem witness_ConstructedStateIsSound : ∃ t, construct [0x17] (one 0x07 [1]) = some t := ⟨_, rfl⟩
theorem witness_EveryStepKeepsTheStateSound : ∃ t, (one 0x07 []).Sound ∧ step (one 0x07 []) = .next t := ⟨_, sound_one, rfl⟩
theorem witness_EveryStepKeepsTheHeapZero : ∃ t, (one 0x04 [5]).heapZero ∧ step (one 0x04 [5]) = .next t ∧ t.status ≠ .faulted :=
  ⟨_, fun _ _ => rfl, rfl, by decide⟩
theorem wellFormed_ldc_halt : ProgramWellFormed [.ldc 0, .halt] :=
  ⟨by decide, by decide, haltOnEveryPath_of_closed (n := 1) (is := [0, 1]) (by decide)⟩

theorem witness_WellFormedProgramKeepsControlInside : ∃ t, (one 0x07 []).Sound ∧ (one 0x07 []).Contained ∧ step (one 0x07 []) = .next t :=
  ⟨_, sound_one, ⟨[.halt], ⟨by decide, ⟨by decide, by decide, haltOnEveryPath_of_closed (n := 0) (is := [0]) (by decide)⟩⟩,
    fun _ => ⟨0, by decide, .refl⟩⟩, rfl⟩
theorem witness_WellFormedProgramNeverEndsInFetchOrDecodeFault : ∃ t u, decodeProgram [0x00, 0x07] = some [.ldc 0, .halt] ∧
    ProgramWellFormed [.ldc 0, .halt] ∧ construct [0x00, 0x07] State.reset = some t ∧ runFor 2 t = some u :=
  ⟨_, _, by decide, wellFormed_ldc_halt, rfl, rfl⟩
/-- `load` at -1 and at `mlen`. -/
theorem witness_MemoryFaultIsANegativeOperandOrALoadPastTheEnd :
    (one 0x01 [-1]).status = .running ∧ (one 0x01 [-1]).usesNegativeOperand ∧ (one 0x01 [0]).loadsPastTheEnd :=
  ⟨rfl, ⟨.load, -1, [], ⟨rfl, 0x01, by decide, by decide⟩, by decide, by decide, rfl, by decide⟩,
    ⟨0, [], ⟨rfl, 0x01, by decide, by decide⟩, rfl, by decide⟩⟩
/-- A state after `n` steps that is at rest, or has no negative word on its stack, uses no negative operand. -/
theorem no_negative_operand_after {n : Nat} {s t : State}
    (h : ((after n s).all fun u => decide (u.status ≠ .running) || u.stack.all fun a => decide (0 ≤ sint a)) = true)
    (ht : after n s = some t) : ¬t.usesNegativeOperand := by
  rintro ⟨i, a, rest, ⟨hr, -⟩, -, -, hs, ha⟩
  simp [ht, hr, hs] at h
  omega

/-- `ldc 0`, `load`, `halt`: well-formed, and its run ends in MemoryFault, `load` standing at `mlen`. -/
theorem witness_WellFormedRunRaisesNoneOfTheThreeFaults : ∃ t u, construct [0x00, 0x01, 0x07] State.reset = some t ∧
    t.RunsWellFormed ∧ runFor 3 t = some u ∧ u.cause = some .memoryFault := by
  refine ⟨_, _, rfl, ⟨⟨[.ldc 0, .load, .halt], by decide, by decide, by decide,
    haltOnEveryPath_of_closed (n := 2) (is := [0, 1, 2]) (by decide)⟩, ?_⟩, rfl, rfl⟩
  intro n t h
  rcases n with _ | _ | _ | n
  · exact no_negative_operand_after (by decide) h
  · exact no_negative_operand_after (by decide) h
  · exact no_negative_operand_after (by decide) h
  · cases h

end Sys2Proof.Tests
end

/-! What an instruction, or a step, that raises no fault leaves unchanged (10_state.md R22 to R31). -/

namespace Sys2Proof.Machine

/-- Where an instruction that raises no fault may write: the stack alone, and with it `pc`, `status`, variable memory or the
heap. The word pushed is left open, so that a proof about the other items has five cases. -/
inductive Footprint (i : Instr) (s : State) : State → Prop
  | stackOnly (l : List Word) : Footprint i s (s.setStack l)
  | jump {k : Word} (hi : i.target = some k) (l : List Word) : Footprint i s ((s.setStack l).setPc k)
  | halt (hi : i = .halt) : Footprint i s (s.setStatus .halted)
  | store {addr v : Word} {rest : List Word} (hi : i = .store) (hs : s.stack = addr :: v :: rest)
      (hcap : (sint addr).toNat + 1 ≤ s.memCap) :
      Footprint i s ((s.setStack (v :: rest)).setMem (s.mem.write (sint addr).toNat v))
  | alloc {n : Nat} (l : List Word) (hi : i = .alloc) (hcap : s.heap.len + n ≤ s.heapCap) :
      Footprint i s ((s.setStack l).setHeap (s.heap.growTo (s.heap.len + n)))

section Ran

variable {i : Instr} {s t : State}

theorem Ran.footprint (h : Ran i s t) : Footprint i s t := by
  cases i
  case ldc k => cases h; exact .stackOnly _
  case load => obtain ⟨addr, rest, -, rfl⟩ := h; exact .stackOnly _
  case store => obtain ⟨addr, v, rest, hs, -, hcap, rfl⟩ := h; exact .store rfl hs hcap
  case pop => obtain ⟨a, rest, -, rfl⟩ := h; exact .stackOnly _
  case alloc => obtain ⟨n, rest, -, -, hcap, rfl⟩ := h; exact .alloc _ rfl hcap
  case jmp k => cases h; exact .jump rfl s.stack
  case jz k =>
    obtain ⟨v, rest, -, ⟨-, rfl⟩ | ⟨-, rfl⟩⟩ := h
    · exact .jump rfl rest
    · exact .stackOnly rest
  case halt => cases h; exact .halt rfl
  case neg | not => obtain ⟨a, rest, r, -, rfl⟩ := h; exact .stackOnly _
  all_goals obtain ⟨a, b, rest, r, -, rfl⟩ := h; exact .stackOnly _

/-- The words popped make way for the words pushed, and what lies under them stays (R22, R118). -/
theorem Ran.stack_split (h : Ran i s t) : ∃ popped pushed rest, s.stack = popped ++ rest ∧ t.stack = pushed ++ rest ∧
    popped.length = i.pops ∧ pushed.length = i.pushes := by
  cases i
  case ldc k => cases h; exact ⟨[], [k], s.stack, rfl, rfl, rfl, rfl⟩
  case load => obtain ⟨addr, rest, hs, rfl⟩ := h; exact ⟨[addr], [_], rest, hs, rfl, rfl, rfl⟩
  case store => obtain ⟨addr, v, rest, hs, -, -, rfl⟩ := h; exact ⟨[addr], [], v :: rest, hs, rfl, rfl, rfl⟩
  case pop => obtain ⟨a, rest, hs, rfl⟩ := h; exact ⟨[a], [], rest, hs, rfl, rfl, rfl⟩
  case alloc => obtain ⟨n, rest, hs, -, -, rfl⟩ := h; exact ⟨[n], [_], rest, hs, rfl, rfl, rfl⟩
  case jmp k => cases h; exact ⟨[], [], s.stack, rfl, rfl, rfl, rfl⟩
  case jz k => obtain ⟨v, rest, hs, ⟨-, rfl⟩ | ⟨-, rfl⟩⟩ := h <;> exact ⟨[v], [], rest, hs, rfl, rfl, rfl⟩
  case halt => cases h; exact ⟨[], [], s.stack, rfl, rfl, rfl, rfl⟩
  case neg | not => obtain ⟨a, rest, r, hs, rfl⟩ := h; exact ⟨[a], [r], rest, hs, rfl, rfl, rfl⟩
  all_goals obtain ⟨a, b, rest, r, hs, rfl⟩ := h; exact ⟨[a, b], [r], rest, hs, rfl, rfl, rfl⟩

theorem Ran.stack_drop (h : Ran i s t) : t.stack.drop i.pushes = s.stack.drop i.pops := by
  obtain ⟨popped, pushed, rest, hs, ht, hpops, hpushes⟩ := h.stack_split
  rw [hs, ht, ← hpops, ← hpushes, List.drop_left, List.drop_left]

theorem Ran.depth_add_pops (h : Ran i s t) : t.depth + i.pops = s.depth + i.pushes := by
  obtain ⟨popped, pushed, rest, hs, ht, hpops, hpushes⟩ := h.stack_split
  simp only [State.depth, hs, ht, List.length_append]
  omega

theorem Ran.prog (h : Ran i s t) : t.prog = s.prog := by cases h.footprint <;> rfl

theorem Ran.caps (h : Ran i s t) : t.caps = s.caps := by cases h.footprint <;> rfl

theorem Ran.cause (h : Ran i s t) : t.cause = s.cause := by cases h.footprint <;> rfl

theorem Ran.status (h : Ran i s t) (hi : i ≠ .halt) : t.status = s.status := by
  cases h.footprint with
  | halt hi' => exact absurd hi' hi
  | _ => rfl

theorem Ran.not_faulted (h : Ran i s t) (hs : s.status ≠ .faulted) : t.status ≠ .faulted := by
  cases h.footprint with
  | halt => simp
  | _ => exact hs

theorem Ran.pc (h : Ran i s t) (hi : i.target = none) : t.pc = s.pc := by
  cases h.footprint with
  | jump hi' => rw [hi] at hi'; cases hi'
  | _ => rfl

theorem Ran.mem (h : Ran i s t) (hi : i ≠ .store) : t.mem = s.mem := by
  cases h.footprint with
  | store hi' => exact absurd hi' hi
  | _ => rfl

/-- `store` writes variable memory at the address popped and nowhere else (R141). -/
theorem Ran.store_mem_get (h : Ran .store s t) {addr v : Word} {rest : List Word} (hs : s.stack = addr :: v :: rest)
    {a : Nat} (ha : a ≠ (sint addr).toNat) : t.mem.get a = s.mem.get a := by
  obtain ⟨addr', v', rest', hs', -, -, rfl⟩ := h
  rw [hs] at hs'
  cases hs'
  exact Memory.get_write_other s.mem v ha

theorem Ran.mem_len_le (h : Ran i s t) : s.mem.len ≤ t.mem.len := by
  cases h.footprint with
  | store => exact Nat.le_max_left _ _
  | _ => exact le_refl _

theorem Ran.heap (h : Ran i s t) (hi : i ≠ .alloc) : t.heap = s.heap := by
  cases h.footprint with
  | alloc _ hi' => exact absurd hi' hi
  | _ => rfl

/-- No instruction writes a word of the heap (R30). -/
theorem Ran.heap_get (h : Ran i s t) (a : Nat) : t.heap.get a = s.heap.get a := by
  cases h.footprint <;> rfl

theorem Ran.heap_len_le (h : Ran i s t) : s.heap.len ≤ t.heap.len := by
  cases h.footprint with
  | alloc => exact Nat.le_max_left _ _
  | _ => exact le_refl _

end Ran

theorem exec_ran {i : Instr} {s t : State} (h : exec i s = .next t) (ht : t.status ≠ .faulted) : Ran i s t :=
  (exec_cases h).resolve_left fun ⟨c, hc⟩ => ht (by rw [hc, State.raise_status])

/-- A step that raises no fault has fetched and decoded an instruction, which ran from the advanced state (R111 to R113). -/
theorem step_ran {s t : State} (h : step s = .next t) (ht : t.status ≠ .faulted) :
    ∃ iw i, s.prog[(sint s.pc).toNat]? = some iw ∧ decode iw = .ok i ∧ Ran i (s.setPc (s.pc + 1#64)) t := by
  obtain ⟨-, ⟨-, rfl⟩ | ⟨-, iw, hiw, ⟨r, -, rfl⟩ | ⟨i, hi, hexec⟩⟩⟩ := step_cases h
  · exact absurd (State.raise_status _ _) ht
  · exact absurd (State.raise_status _ _) ht
  · exact ⟨iw, i, hiw, hi, exec_ran hexec ht⟩

/-- The advance cannot wrap from an index of a program (R4, R112). -/
theorem sint_add_one {w : Word} (h0 : 0 ≤ sint w) (h1 : sint w < plenMax) : sint (w + 1#64) = sint w + 1 := by
  simp only [sint, plenMax] at *
  rw [BitVec.toInt_add, show (1#64).toInt = 1 by decide, Int.bmod_def]
  omega

/-- Settles O50, from the split of the stack into the words popped and what lies under them. -/
theorem stackBelowTheOperandsIsUntouched : Obligations.StackBelowTheOperandsIsUntouched :=
  fun _ _ _ h ht => (exec_ran h ht).stack_drop

/-- Settles O51, item by item over the places an instruction may write. -/
theorem everyInstructionKeepsItsFrame : Obligations.EveryInstructionKeepsItsFrame := by
  intro i s t h ht
  have hran := exec_ran h ht
  refine ⟨hran.prog, hran.caps, hran.cause, hran.status, hran.pc, hran.stack_drop, hran.depth_add_pops, hran.mem, ?_,
    hran.heap, hran.heap_get⟩
  rintro addr v rest rfl hs a ha
  exact hran.store_mem_get hs ha

/-- Settles O52: only `store` and `alloc` change a length, each to a maximum with the old one. -/
theorem storageNeverShrinks : Obligations.StorageNeverShrinks := by
  intro s t h ht
  obtain ⟨iw, i, -, -, hran⟩ := step_ran h ht
  exact ⟨hran.mem_len_le, hran.heap_len_le⟩

/-- Settles O56: a step that raises no fault leaves every heap index reading as before. -/
theorem everyStepKeepsTheHeapZero : Obligations.EveryStepKeepsTheHeapZero := by
  intro s t hzero h ht a
  have hs : s.status ≠ .faulted := by simp [(step_cases h).1]
  obtain ⟨iw, i, -, -, hran⟩ := step_ran h ht
  rw [hran.heap_get a]
  exact hzero hs a

/-- Settles O19: the advance does not wrap below PLEN_MAX, and only the two jumps write `pc` after it. -/
theorem pcAdvancesUnlessAJumpWritesIt : Obligations.PcAdvancesUnlessAJumpWritesIt := by
  intro s t iw i hlen _ hpc hiw hi h ht
  obtain ⟨iw', i', hiw', hi', hran⟩ := step_ran h ht
  obtain rfl : iw = iw' := Option.some.inj (hiw.symm.trans hiw')
  obtain rfl : i = i' := Except.ok.inj (hi.symm.trans hi')
  refine ⟨sint_add_one hpc.1 (by have := hpc.2; omega), hran.pc, ?_, ?_⟩
  · rintro k rfl
    cases hran
    rfl
  · rintro k rfl
    obtain ⟨v, rest, hs, ⟨hv, rfl⟩ | ⟨hv, rfl⟩⟩ := hran <;> rw [State.setPc_stack] at hs <;> simp [hs, hv]

end Sys2Proof.Machine

/-! `State.Sound` is kept by every update of the state that an instruction makes, by fault entry, and so by every step. -/

namespace Sys2Proof.Machine

section Updates

variable {s : State}

/-- Fault entry draws its free values within the capacities and in the canonical form (R20, R260), whatever the storages held. -/
theorem sound_raise (h : s.prog.length ≤ plenMax) (f : FaultClass) : (s.raise f).Sound where
  prog_length := h
  stack_within n hn := by
    rw [State.raise_caps] at hn
    rw [State.depth, State.raise_stack, hn]
    exact freeStack_within _ _
  mem_wf := freeMemory_wf _ _
  mem_within := freeMemory_within _ _
  heap_wf := freeMemory_wf _ _
  heap_within := freeMemory_within _ _
  cause_iff := by simp

theorem State.Sound.setPc (h : s.Sound) (t : Word) : (s.setPc t).Sound := { h with }

theorem State.Sound.setStack (h : s.Sound) {l : List Word} (hl : (s.setStack l).stackWithinCap) : (s.setStack l).Sound :=
  { h with stack_within := hl }

theorem State.Sound.setMem (h : s.Sound) {m : Memory} (hwf : m.wf = true) (hlen : m.len ≤ s.memCap) : (s.setMem m).Sound :=
  { h with mem_wf := hwf, mem_within := hlen }

theorem State.Sound.setHeap (h : s.Sound) {m : Memory} (hwf : m.wf = true) (hlen : m.len ≤ s.heapCap) : (s.setHeap m).Sound :=
  { h with heap_wf := hwf, heap_within := hlen }

theorem State.Sound.setStatus_halted (h : s.Sound) (hs : s.status ≠ .faulted) : (s.setStatus .halted).Sound :=
  { h with cause_iff := by simpa [hs] using h.cause_iff }

end Updates

/-- Only `ldc` makes the stack deeper (R84). -/
theorem pushes_le_pops {i : Instr} (h : ∀ k, i ≠ .ldc k) : i.pushes ≤ i.pops := by
  cases i
  case ldc k => exact absurd rfl (h k)
  all_goals simp [Instr.pushes, Instr.pops]

theorem exec_ldc_not_full {k : Word} {s t : State} (h : exec (.ldc k) s = .next t) (ht : t.status ≠ .faulted) :
    ¬s.stackFull := by
  intro hfull
  simp only [exec, execLdc, push_full hfull, settle_error] at h
  cases h
  exact ht rfl

/-- The depth stays within STACK_CAP: `ldc` checks it, and no other instruction makes the stack deeper (R20, R23). -/
theorem exec_stackWithinCap {i : Instr} {s t : State} (h : exec i s = .next t) (ht : t.status ≠ .faulted)
    (hs : s.stackWithinCap) : t.stackWithinCap := by
  intro n hn
  have hran := exec_ran h ht
  rw [hran.caps] at hn
  have hdepth := hran.depth_add_pops
  have hle := hs n hn
  by_cases hi : ∃ k, i = .ldc k
  · obtain ⟨k, rfl⟩ := hi
    have hne : s.depth ≠ n := fun he => exec_ldc_not_full h ht (by rw [State.stackFull, hn, ← he]; rfl)
    simp only [Instr.pops, Instr.pushes] at hdepth
    omega
  · have := pushes_le_pops (not_exists.1 hi)
    omega

theorem Ran.sound {i : Instr} {s t : State} (h : Ran i s t) (hs : s.Sound) (hstatus : s.status ≠ .faulted)
    (hstack : t.stackWithinCap) : t.Sound := by
  cases h.footprint with
  | stackOnly => exact hs.setStack hstack
  | jump => exact (hs.setStack hstack).setPc _
  | halt => exact hs.setStatus_halted hstatus
  | store _ _ hcap => exact (hs.setStack hstack).setMem (Memory.write_wf _ _ hs.mem_wf) (max_le hs.mem_within hcap)
  | alloc _ _ hcap => exact (hs.setStack hstack).setHeap (Memory.growTo_wf _ hs.heap_wf) (max_le hs.heap_within hcap)

theorem exec_sound {i : Instr} {s t : State} (h : exec i s = .next t) (hs : s.Sound) (hstatus : s.status ≠ .faulted) :
    t.Sound := by
  obtain ⟨c, rfl⟩ | hran := exec_cases h
  · exact sound_raise hs.prog_length c
  · exact hran.sound hs hstatus (exec_stackWithinCap h (hran.not_faulted hstatus) hs.stack_within)

/-- Settles O55: a step ends in fault entry, which is sound, or runs an instruction from the sound advanced state. -/
theorem everyStepKeepsTheStateSound : Obligations.EveryStepKeepsTheStateSound := by
  intro s t hs h
  obtain ⟨hrun, ⟨-, rfl⟩ | ⟨-, iw, -, ⟨r, -, rfl⟩ | ⟨i, -, hexec⟩⟩⟩ := step_cases h
  · exact sound_raise hs.prog_length _
  · exact sound_raise (hs.setPc _).prog_length _
  · exact exec_sound hexec (hs.setPc _) (by simp [hrun])

/-- The sizes are 0 and nothing is recorded, so only the program's length needs Construct's `require` (R33, R300). -/
theorem construct_sound {s t : State} {prog : List IWord} (h : construct prog s = some t) : t.Sound ∧ t.heapZero := by
  rw [construct] at h
  split at h
  case isFalse => cases h
  case isTrue hlen =>
    cases h
    exact ⟨{ prog_length := hlen
             stack_within := fun _ _ => Nat.zero_le _
             mem_wf := Memory.empty_wf
             mem_within := Nat.zero_le _
             heap_wf := Memory.empty_wf
             heap_within := Nat.zero_le _
             cause_iff := by simp }, fun _ => Memory.empty_get⟩

/-- `State.reset` is what Construct of the empty program leaves (log entry 7). -/
theorem construct_nil_reset : construct [] State.reset = some State.reset := if_pos (Nat.zero_le _)

/-- Settles O54, `State.reset` being a constructed state. -/
theorem constructedStateIsSound : Obligations.ConstructedStateIsSound :=
  ⟨fun _ _ _ => construct_sound, construct_sound construct_nil_reset⟩

/-- Settles O1: the length allowed, Construct answers the state it writes out. -/
theorem constructLeavesResetValues : Obligations.ConstructLeavesResetValues :=
  fun _ _ hlen => ⟨_, if_pos hlen, rfl, rfl, rfl, rfl, rfl, rfl, rfl, rfl, rfl, rfl⟩

end Sys2Proof.Machine

/-! Several engines side by side (10_state.md R34). -/

namespace Sys2Proof.Machine

/-- A step of engine `k` puts that engine's next state in its place in the list. -/
theorem stepEngine_eq_set {k : Nat} {es fs : List State} (h : stepEngine k es = some fs) :
    ∃ s t, es[k]? = some s ∧ step s = .next t ∧ fs = es.set k t := by
  induction es generalizing k fs with
  | nil => simp [stepEngine] at h
  | cons e rest ih =>
    cases k with
    | zero =>
      cases hstep : step e <;> simp only [stepEngine, hstep, reduceCtorEq] at h
      cases h
      exact ⟨e, _, rfl, hstep, rfl⟩
    | succ k =>
      simp only [stepEngine, Option.map_eq_some_iff] at h
      obtain ⟨fs', hfs', rfl⟩ := h
      obtain ⟨s, t, hs, hstep, rfl⟩ := ih hfs'
      exact ⟨s, t, hs, hstep, rfl⟩

/-- Settles O7: the new list is the old one with one place written. -/
theorem enginesShareNothing : Obligations.EnginesShareNothing := by
  intro k es fs h
  obtain ⟨s, t, hs, hstep, rfl⟩ := stepEngine_eq_set h
  obtain ⟨hk, -⟩ := List.getElem?_eq_some_iff.1 hs
  exact ⟨List.length_set, fun j hj => List.getElem?_set_ne hj.symm, s, t, hs, hstep, List.getElem?_set_self hk⟩

end Sys2Proof.Machine

/-! Storage (20_memory.md): the program store is never written, what `store` writes and a `load` reads back, and that the
heap and variable memory are separate. -/

namespace Sys2Proof.Machine

/-- Fault entry is what `Raises` asks for (R260). -/
theorem raises_next_raise (f : FaultClass) (s : State) : Raises f s (.next (s.raise f)) :=
  ⟨_, rfl, rfl, rfl, rfl, rfl, rfl⟩

/-- No instruction writes the program store, whether it faults or not (R63). -/
theorem exec_prog {i : Instr} {s t : State} (h : exec i s = .next t) : t.prog = s.prog := by
  obtain ⟨c, rfl⟩ | hran := exec_cases h
  · exact State.raise_prog c s
  · exact hran.prog

/-- Settles O20: fault entry, the advance and every instruction keep the program. -/
theorem noStepWritesTheProgramStore : Obligations.NoStepWritesTheProgramStore := by
  intro s t h
  obtain ⟨-, ⟨-, rfl⟩ | ⟨-, iw, -, ⟨r, -, rfl⟩ | ⟨i, -, hexec⟩⟩⟩ := step_cases h
  · exact State.raise_prog _ _
  · exact State.raise_prog _ _
  · exact (exec_prog hexec).trans (State.setPc_prog s _)

section Store

variable {s : State} {addr v : Word} {rest : List Word} (hs : s.stack = addr :: v :: rest)

include hs

theorem exec_store_ok (h0 : 0 ≤ sint addr) (h1 : (sint addr).toNat + 1 ≤ s.memCap) :
    exec .store s = .next ((s.setStack (v :: rest)).setMem (s.mem.write (sint addr).toNat v)) := by
  rw [exec, execStore_cons hs, memWrite_ok (s := s.setStack (v :: rest)) h0 h1]
  rfl

theorem exec_store_negative (h : sint addr < 0) : exec .store s = .next (s.raise .memoryFault) := by
  rw [exec, execStore_cons hs, memWrite_negative h, settle_error]

theorem exec_store_full (h0 : 0 ≤ sint addr) (h1 : s.memCap < (sint addr).toNat + 1) :
    exec .store s = .next (s.raise .capacityFault) := by
  rw [exec, execStore_cons hs, memWrite_full (s := s.setStack (v :: rest)) h0 h1, settle_error]

end Store

/-- Settles O32, from the answer of `store` in each case of MemWrite and the rules for a read after a write. -/
theorem storeWritesOneWordAndZeroFills : Obligations.StoreWritesOneWordAndZeroFills := by
  intro s hwf
  refine ⟨fun addr v rest hs => ⟨?_, ?_, ?_⟩, ?_⟩
  · rintro ⟨h0, h1⟩
    refine ⟨_, exec_store_ok hs h0 (by omega), rfl, rfl, Memory.get_write_same _ v hwf, ?_,
      fun a ha => Memory.get_write_other s.mem v ha⟩
    intro a hpast hlt
    exact (Memory.get_write_other s.mem v hlt.ne).trans (Memory.get_past hwf hpast)
  · intro hneg
    rw [exec_store_negative hs hneg]
    exact raises_next_raise _ s
  · rintro ⟨h0, h1⟩
    rw [exec_store_full hs h0 (by omega)]
    exact raises_next_raise _ s
  · intro hd
    rw [exec, execStore_short hd]
    exact raises_next_raise _ s

/-- Where the depth is within STACK_CAP, a pop makes room for a push. -/
theorem not_full_of_popped {s : State} {a : Word} {rest : List Word} (hcap : s.stackWithinCap) (hs : s.stack = a :: rest) :
    ¬(s.setStack rest).stackFull := by
  intro hfull
  have := hcap _ hfull
  simp [State.depth, hs] at this

theorem exec_load_ok {s : State} {addr : Word} {rest : List Word} (hcap : s.stackWithinCap) (hs : s.stack = addr :: rest)
    (h0 : 0 ≤ sint addr) (h1 : (sint addr).toNat < s.mem.len) :
    exec .load s = .next (s.setStack (s.mem.get (sint addr).toNat :: rest)) := by
  rw [exec, execLoad_cons hs, memRead_ok (s := s.setStack rest) h0 h1, Except.bind, push_ok (not_full_of_popped hcap hs)]
  rfl

/-- Settles O34: the store leaves `v` at an index below the new `mlen`, and the depth is still within STACK_CAP at the load. -/
theorem storeThenLoadYieldsTheValue : Obligations.StoreThenLoadYieldsTheValue := by
  intro s t u addr v rest hwf hcap hs hstore ht hldc hu
  have hcapu := exec_stackWithinCap hldc hu (exec_stackWithinCap hstore ht hcap)
  obtain ⟨addr', v', rest', hs', h0, -, rfl⟩ := exec_ran hstore ht
  obtain rfl : u = _ := exec_ran hldc hu
  rw [hs] at hs'
  cases hs'
  rw [exec_load_ok hcapu rfl h0 (by simp)]
  simp [Memory.get_write_same _ v hwf]

/-! Separate spaces (R50). An update of a storage passes through every operation that does not read or write that storage. -/

/-- `g` updates nothing that the stack primitives, the jumps and `halt` read or write. -/
structure KeepsAllButStorage (g : State → State) : Prop where
  stack_eq : ∀ s, (g s).stack = s.stack
  caps_eq : ∀ s, (g s).caps = s.caps
  setStack_comm : ∀ s l, (g s).setStack l = g (s.setStack l)
  setPc_comm : ∀ s k, (g s).setPc k = g (s.setPc k)
  setStatus_comm : ∀ s u, (g s).setStatus u = g (s.setStatus u)

theorem keepsAllButStorage_setHeap (m : Memory) : KeepsAllButStorage (·.setHeap m) :=
  ⟨fun _ => rfl, fun _ => rfl, fun _ _ => rfl, fun _ _ => rfl, fun _ _ => rfl⟩

theorem keepsAllButStorage_setMem (m : Memory) : KeepsAllButStorage (·.setMem m) :=
  ⟨fun _ => rfl, fun _ => rfl, fun _ _ => rfl, fun _ _ => rfl, fun _ _ => rfl⟩

/-- Where an update passes through an effect that completes, it passes through the instruction that settles it. -/
theorem settle_comm {g : State → State} {s t : State} {e e' : Effect State} (he : e' = e.map g)
    (h : settle s e = .next t) (ht : t.status ≠ .faulted) : settle (g s) e' = .next (g t) := by
  subst he
  obtain rfl | ⟨c, -, rfl⟩ := settle_cases h
  · rfl
  · exact absurd (State.raise_status c s) ht

section KeepsAllButStorage

variable {g : State → State} (hg : KeepsAllButStorage g)

include hg

theorem KeepsAllButStorage.depth_eq (s : State) : (g s).depth = s.depth := by
  rw [State.depth, hg.stack_eq, State.depth]

theorem KeepsAllButStorage.push_comm (v : Word) (s : State) : push v (g s) = (push v s).map g := by
  have hfull : (g s).stackFull ↔ s.stackFull := by rw [State.stackFull, State.stackFull, hg.caps_eq, hg.stack_eq]
  by_cases h : s.stackFull
  · rw [push_full h, push_full (hfull.2 h)]; rfl
  · rw [push_ok h, push_ok (mt hfull.1 h), hg.stack_eq, hg.setStack_comm]; rfl

/-- The end of the forms that compute a word, or fault, and push it. -/
theorem KeepsAllButStorage.bind_push_comm (e : Effect Word) (s : State) :
    (e.bind fun r => push r (g s)) = (e.bind fun r => push r s).map g := by
  cases e with
  | error f => rfl
  | ok r => exact hg.push_comm r s

theorem KeepsAllButStorage.binary_comm (f : Word → Word → Effect Word) (s : State) :
    binary f (g s) = (binary f s).map g := by
  by_cases hd : s.depth < 2
  · rw [binary_short hd, binary_short (by rwa [hg.depth_eq])]; rfl
  · obtain ⟨a, b, rest, hs⟩ := stack_two (by omega : 2 ≤ s.depth)
    rw [binary_cons hs, binary_cons ((hg.stack_eq s).trans hs), hg.setStack_comm]
    exact hg.bind_push_comm _ _

theorem KeepsAllButStorage.unary_comm (f : Word → Effect Word) (s : State) : unary f (g s) = (unary f s).map g := by
  by_cases hd : s.depth < 1
  · rw [unary_short hd, unary_short (by rwa [hg.depth_eq])]; rfl
  · obtain ⟨a, rest, hs⟩ := stack_one (by omega : 1 ≤ s.depth)
    rw [unary_cons hs, unary_cons ((hg.stack_eq s).trans hs), hg.setStack_comm]
    exact hg.bind_push_comm _ _

/-- An instruction that uses no storage does the same whatever the storages hold. -/
theorem KeepsAllButStorage.exec_comm {i : Instr} {s t : State} (h : exec i s = .next t) (ht : t.status ≠ .faulted)
    (hi : i.readsIndex = false) : exec i (g s) = .next (g t) := by
  cases i
  case load => cases hi
  case store => cases hi
  case alloc => cases hi
  case ldc k => exact settle_comm (hg.push_comm k s) h ht
  case pop =>
    obtain ⟨a, rest, hs, rfl⟩ := exec_ran h ht
    rw [exec, execPop_cons ((hg.stack_eq s).trans hs), hg.setStack_comm]
  case jmp k =>
    cases h
    rw [exec, execJmp, hg.setPc_comm]
  case jz k =>
    obtain ⟨v, rest, hs, ⟨hv, rfl⟩ | ⟨hv, rfl⟩⟩ := exec_ran h ht
    all_goals simp [exec, execJz_cons ((hg.stack_eq s).trans hs), hv, hg.setStack_comm, hg.setPc_comm]
  case halt =>
    cases h
    rw [exec, execHalt, hg.setStatus_comm]
  case neg | not => exact settle_comm (hg.unary_comm _ s) h ht
  all_goals exact settle_comm (hg.binary_comm _ s) h ht

end KeepsAllButStorage

section OtherStorage

variable {s t : State} (m : Memory)

/-- `load` reads variable memory, never the heap (R140). -/
theorem exec_load_setHeap (h : exec .load s = .next t) (ht : t.status ≠ .faulted) :
    exec .load (s.setHeap m) = .next (t.setHeap m) := by
  obtain ⟨addr, rest, hs, -⟩ := exec_ran h ht
  rw [exec, execLoad_cons hs] at h
  rw [exec, execLoad_cons (s := s.setHeap m) hs]
  exact settle_comm ((keepsAllButStorage_setHeap m).bind_push_comm _ _) h ht

theorem exec_store_setHeap (h : exec .store s = .next t) (ht : t.status ≠ .faulted) :
    exec .store (s.setHeap m) = .next (t.setHeap m) := by
  obtain ⟨addr, v, rest, hs, h0, h1, rfl⟩ := exec_ran h ht
  exact exec_store_ok (s := s.setHeap m) hs h0 h1

theorem exec_alloc_setMem (h : exec .alloc s = .next t) (ht : t.status ≠ .faulted) :
    exec .alloc (s.setMem m) = .next (t.setMem m) := by
  obtain ⟨n, rest, hs, h0, h1, -⟩ := exec_ran h ht
  rw [exec, execAlloc_cons hs, heapAlloc_ok (s := s.setStack rest) h0 h1] at h
  rw [exec, execAlloc_cons (s := s.setMem m) hs, heapAlloc_ok (s := (s.setMem m).setStack rest) h0 h1]
  exact settle_comm ((keepsAllButStorage_setMem m).push_comm _ _) h ht

end OtherStorage

/-- Settles O53: only `load`, `store` and `alloc` use a storage, and each the one that is not updated. -/
theorem heapAndMemoryAreSeparate : Obligations.HeapAndMemoryAreSeparate := by
  intro i s t m h ht
  constructor
  · intro halloc
    cases i
    case load => exact exec_load_setHeap m h ht
    case store => exact exec_store_setHeap m h ht
    case alloc => exact absurd rfl halloc
    all_goals exact (keepsAllButStorage_setHeap m).exec_comm h ht rfl
  · rintro ⟨hload, hstore⟩
    cases i
    case load => exact absurd rfl hload
    case store => exact absurd rfl hstore
    case alloc => exact exec_alloc_setMem m h ht
    all_goals exact (keepsAllButStorage_setMem m).exec_comm h ht rfl

end Sys2Proof.Machine

/-! Instruction words (30_encoding.md R81 to R88): `decode` and `encode` are inverse to each other on the legal words, and
the illegal words are those of R85 and R86. -/

namespace Sys2Proof

@[simp] theorem opField_encode (i : Instr) : opField (encode i) = i.opcode := opField_append _ _

@[simp] theorem immField_encode (i : Instr) : immField (encode i) = i.immediate := immField_append _ _

theorem encode_eq_of_fields {iw : IWord} {i : Instr} (hop : opField iw = i.opcode) (himm : immField iw = i.immediate) :
    encode i = iw := by
  rw [encode, ← hop, ← himm, fields_append]

/-- `op` is the low byte of the word read as a number (R81). -/
theorem toNat_opField (iw : IWord) : (opField iw).toNat = iw.toNat % 256 := by
  rw [opField, BitVec.extractLsb'_toNat, Nat.shiftRight_zero]

/-- `imm` is all of the word above its low byte (R81). -/
theorem toNat_immField (iw : IWord) : (immField iw).toNat = iw.toNat / 256 := by
  have := iw.isLt
  rw [immField, BitVec.extractLsb'_toNat, Nat.shiftRight_eq_div_pow]
  omega

/-- Every opcode of R84 is at most 0x16. -/
theorem Instr.opcode_le (i : Instr) : i.opcode.toNat ≤ 0x16 := by
  cases i <;> simp [Instr.opcode]

theorem Instr.immediate_eq_zero {i : Instr} (h : i.format = .N) : i.immediate = 0#64 := by
  cases i
  case ldc | jmp | jz => cases h
  all_goals rfl

/-- The format I opcodes are 0x00, 0x05 and 0x06 (R84). -/
theorem Instr.format_eq_N_iff (i : Instr) :
    i.format = .N ↔ i.opcode.toNat ≠ 0x00 ∧ i.opcode.toNat ≠ 0x05 ∧ i.opcode.toNat ≠ 0x06 := by
  cases i <;> simp [Instr.format, Instr.opcode]

/-- What `decode` can answer for `iw`: the instruction whose word `iw` is, or a rejection for the reason of R85 or of R86. -/
inductive Decoded (iw : IWord) : Except Reject Instr → Prop
  | legal {i : Instr} (hi : encode i = iw) : Decoded iw (.ok i)
  | undefined (hop : 0x16 < (opField iw).toNat) : Decoded iw (.error (.undefinedOpcode (opField iw)))
  | reserved {i : Instr} (hi : i.format = .N) (hop : opField iw = i.opcode) (himm : immField iw ≠ 0#64) :
      Decoded iw (.error (.reservedImmediate (opField iw)))

theorem decoded_formatN {iw : IWord} {i : Instr} (hi : i.format = .N) (hop : (opField iw).toNat = i.opcode.toNat) :
    Decoded iw (formatN (opField iw) (immField iw) i) := by
  have hop := BitVec.eq_of_toNat_eq hop
  by_cases himm : immField iw = 0#64
  · rw [formatN, if_pos himm]
    exact .legal (encode_eq_of_fields hop (himm.trans (Instr.immediate_eq_zero hi).symm))
  · rw [formatN, if_neg himm]
    exact .reserved hi hop himm

theorem decoded_formatI {iw : IWord} {i : Instr} (hop : (opField iw).toNat = i.opcode.toNat)
    (himm : immField iw = i.immediate) : Decoded iw (.ok i) :=
  .legal (encode_eq_of_fields (BitVec.eq_of_toNat_eq hop) himm)

/-- The rows of R84, one by one: three of format I, twenty of format N, and the opcodes past the last row. -/
theorem decoded_decode (iw : IWord) : Decoded iw (decode iw) := by
  dsimp only [decode]
  split
  case h_1 hop | h_6 hop | h_7 hop => exact decoded_formatI hop rfl
  case h_24 =>
    simp only [imp_false] at *
    exact .undefined (by omega)
  all_goals next hop => exact decoded_formatN rfl hop

/-- R88: every instruction decodes from its own word. -/
@[simp] theorem decode_encode (i : Instr) : decode (encode i) = .ok i := by
  rw [decode, opField_encode, immField_encode]
  cases i <;> rfl

theorem encode_eq_of_decode {iw : IWord} {i : Instr} (h : decode iw = .ok i) : encode i = iw := by
  have hd := decoded_decode iw
  rw [h] at hd
  cases hd with
  | legal hi => exact hi

/-- The illegal words, in terms of the two fields (R85, R86). -/
theorem decode_error_iff (iw : IWord) : (∃ r, decode iw = .error r) ↔
    0x16 < (opField iw).toNat ∨ ((opField iw).toNat ≠ 0x00 ∧ (opField iw).toNat ≠ 0x05 ∧ (opField iw).toNat ≠ 0x06 ∧
      immField iw ≠ 0#64) := by
  generalize hd : decode iw = d
  cases hd ▸ decoded_decode iw with
  | undefined hop => exact iff_of_true ⟨_, rfl⟩ (.inl hop)
  | @reserved i hi hop himm =>
    obtain ⟨h0, h5, h6⟩ := i.format_eq_N_iff.1 hi
    rw [hop]
    exact iff_of_true ⟨_, rfl⟩ (.inr ⟨h0, h5, h6, himm⟩)
  | @legal i hi =>
    refine iff_of_false (by simp) ?_
    rw [← hi, opField_encode, immField_encode]
    rintro (hop | ⟨h0, h5, h6, himm⟩)
    · exact absurd i.opcode_le (Nat.not_le.2 hop)
    · exact himm (Instr.immediate_eq_zero (i.format_eq_N_iff.2 ⟨h0, h5, h6⟩))

/-- Settles O9, the two fields of a word being those it was put together from. -/
theorem decodeOfEncode : Obligations.DecodeOfEncode := decode_encode

/-- Settles O10: `decode` answers an instruction only for that instruction's word. -/
theorem encodeOfDecode : Obligations.EncodeOfDecode := fun _ _ => encode_eq_of_decode

end Sys2Proof

namespace Sys2Proof.Machine

theorem fetch_of_pcInRange {s : State} (h : s.pcInRange) : fetch s = s.prog[(sint s.pc).toNat]? := if_pos h

/-- A word that decodes to no instruction raises IllegalInstruction from the advanced state (R112, R113). -/
theorem step_of_decode_error {s : State} {iw : IWord} {r : Reject} (hs : s.status = .running) (hf : fetch s = some iw)
    (hd : decode iw = .error r) : step s = .next ((s.setPc (s.pc + 1#64)).raise .illegalInstruction) := by
  rw [step, hs]
  simp only [hf, hd, advance]

/-- Settles O11, from what `decode` can answer and the value of the two fields. -/
theorem illegalWordsRaiseIllegalInstruction : Obligations.IllegalWordsRaiseIllegalInstruction := by
  intro s iw hs hpc hiw
  constructor
  · rw [decode_error_iff, ne_eq (immField iw), ← BitVec.toNat_inj, toNat_opField, toNat_immField]
    rfl
  · rintro ⟨r, hr⟩
    rw [step_of_decode_error hs ((fetch_of_pcInRange hpc).trans hiw) hr]
    exact raises_next_raise _ _

end Sys2Proof.Machine

/-! Bytes and program images (30_encoding.md R89). -/

namespace Sys2Proof

/-- Byte `k` of a word of any width is its `k`-th digit to the base 256. -/
theorem extractLsb'_byte {n : Nat} (w : BitVec n) (k : Nat) :
    w.extractLsb' (8 * k) 8 = BitVec.ofNat 8 (w.toNat / 256 ^ k) := by
  rw [BitVec.extractLsb', Nat.shiftRight_eq_div_pow, pow_mul]
  rfl

theorem toBytes_eq_map (iw : IWord) : toBytes iw = (List.range 9).map fun k => iw.extractLsb' (8 * k) 8 := rfl

theorem dataBytes_eq_map (w : Word) : dataBytes w = (List.range 8).map fun k => w.extractLsb' (8 * k) 8 := rfl

/-- The word of its own bytes: neighbouring slices join, from the most significant down. -/
theorem ofBytes_wordByte (iw : IWord) :
    ofBytes (wordByte iw 0) (wordByte iw 1) (wordByte iw 2) (wordByte iw 3) (wordByte iw 4) (wordByte iw 5)
      (wordByte iw 6) (wordByte iw 7) (wordByte iw 8) = iw := by
  simp only [ofBytes, wordByte]
  iterate 8 rw [BitVec.extractLsb'_append_extractLsb'_eq_extractLsb' (by rfl)]
  exact BitVec.extractLsb'_eq_self

theorem imageProgram_toBytes_append (iw : IWord) (image : List Byte) :
    imageProgram (toBytes iw ++ image) = (imageProgram image).map (iw :: ·) := by
  rw [toBytes]
  simp only [List.cons_append, List.nil_append, imageProgram, ofBytes_wordByte]
  cases imageProgram image <;> rfl

theorem imageProgram_programImage (p : List IWord) : imageProgram (programImage p) = some p := by
  induction p with
  | nil => rfl
  | cons iw rest ih => rw [programImage, imageProgram_toBytes_append, ih, Option.map_some]

theorem programImage_eq_flatMap (p : List IWord) : programImage p = p.flatMap toBytes := by
  induction p with
  | nil => rfl
  | cons iw rest ih => rw [programImage, ih, List.flatMap_cons]

/-- Settles O12: the bytes are the word's digits to the base 256, in rising order. -/
theorem bytesAreLittleEndian : Obligations.BytesAreLittleEndian := by
  refine ⟨fun iw => ⟨rfl, fun k hk => ?_⟩, fun w => ⟨rfl, fun k hk => ?_⟩, programImage_eq_flatMap⟩
  · simp [toBytes_eq_map, hk, extractLsb'_byte]
  · simp [dataBytes_eq_map, hk, extractLsb'_byte]

/-- Settles O13, by induction on the program. -/
theorem imageGivesTheProgramBack : Obligations.ImageGivesTheProgramBack := by
  intro p s
  have h := imageProgram_programImage p
  exact ⟨h, by rw [Machine.constructImage, h]⟩

end Sys2Proof

/-! Assembly text (30_encoding.md R90): mnemonics with the operand of their format, and signed decimals. -/

namespace Sys2Proof.Machine

/-- A mnemonic of format N names one instruction and is no mnemonic of format I (R84). -/
theorem lookup_of_mem_mnemonicsN :
    ∀ p ∈ mnemonicsN, mnemonicsN.lookup p.1 = some p.2 ∧ mnemonicsI.lookup p.1 = none := by decide

/-- A mnemonic of format I names one instruction and is no mnemonic of format N (R84). -/
theorem lookup_of_mem_mnemonicsI :
    ∀ p ∈ mnemonicsI, mnemonicsI.lookup p.1 = some p.2 ∧ mnemonicsN.lookup p.1 = none := by
  rw [mnemonicsI]
  simp only [List.forall_mem_cons]
  exact ⟨⟨rfl, rfl⟩, ⟨rfl, rfl⟩, ⟨rfl, rfl⟩, List.forall_mem_nil _⟩

theorem assembleTokens_pair_of_not_formatI {m : List Char} (h : mnemonicsI.lookup m = none) (k : List Char) :
    assembleTokens [m, k] = none := by
  rw [assembleTokens, h]

theorem assembleTokens_pair_of_formatI {m : List Char} {f : Word → Instr} (h : mnemonicsI.lookup m = some f)
    (k : List Char) : assembleTokens [m, k] = (operand k).map f := by
  rw [assembleTokens, h]
  cases operand k <;> rfl

theorem operand_fits {k : List Char} {v : Int} (h : signedDecimal k = some v) (hv : fitsWord v) :
    operand k = some (wordOf v) := by
  simp only [operand, h, if_pos hv]

theorem operand_past_range {k : List Char} {v : Int} (h : signedDecimal k = some v) (hv : ¬fitsWord v) :
    operand k = none := by
  simp only [operand, h, if_neg hv]

theorem operand_no_decimal {k : List Char} (h : signedDecimal k = none) : operand k = none := by
  simp only [operand, h]

theorem digitValue_digitChar : ∀ d < 10, digitValue d.digitChar = some d := by decide

theorem digitChar_not_sign : ∀ d < 10, d.digitChar ≠ '-' ∧ d.digitChar ≠ '+' := by decide

/-- The digits read after `acc` are folded onto it, most significant first. -/
theorem digitsValue_map_digitChar {ds : List Nat} (h : ∀ d ∈ ds, d < 10) (acc : Nat) :
    digitsValue acc (ds.map Nat.digitChar) = some (ds.foldl (fun n d => 10 * n + d) acc) := by
  induction ds generalizing acc with
  | nil => rfl
  | cons d rest ih =>
    obtain ⟨hd, hrest⟩ := List.forall_mem_cons.1 h
    simp only [List.map_cons, digitsValue, digitValue_digitChar d hd, ih hrest, List.foldl_cons]

theorem decimal_map_digitChar {ds : List Nat} (hne : ds ≠ []) (h : ∀ d ∈ ds, d < 10) :
    decimal (ds.map Nat.digitChar) = some (ds.foldl (fun n d => 10 * n + d) 0) := by
  cases ds with
  | nil => exact absurd rfl hne
  | cons d rest => exact digitsValue_map_digitChar h 0

theorem signedDecimal_minus (cs : List Char) :
    signedDecimal ('-' :: cs) = (decimal cs).map fun n => -Int.ofNat n := by
  rw [signedDecimal]
  cases decimal cs <;> rfl

theorem signedDecimal_plus (cs : List Char) : signedDecimal ('+' :: cs) = (decimal cs).map Int.ofNat := by
  rw [signedDecimal]
  cases decimal cs <;> rfl

theorem signedDecimal_unsigned {c : Char} (h : c ≠ '-' ∧ c ≠ '+') (cs : List Char) :
    signedDecimal (c :: cs) = (decimal (c :: cs)).map Int.ofNat := by
  rw [signedDecimal]
  · cases decimal (c :: cs) <;> rfl
  · rintro _ ⟨⟩; exact h.1 rfl
  · rintro _ ⟨⟩; exact h.2 rfl

theorem signedDecimal_map_digitChar {ds : List Nat} (h : ∀ d ∈ ds, d < 10) :
    signedDecimal (ds.map Nat.digitChar) = (decimal (ds.map Nat.digitChar)).map Int.ofNat := by
  cases ds with
  | nil => rfl
  | cons d rest => exact signedDecimal_unsigned (digitChar_not_sign d (List.forall_mem_cons.1 h).1) _

/-- Settles O14: the mnemonics of R84 are the rows of the model's two tables, a line of two tokens is what its operand gives,
and digits are read by folding. -/
theorem assemblyTakesTheOperandOfTheFormat : Obligations.AssemblyTakesTheOperandOfTheFormat := by
  refine ⟨fun m i hm => ?_, fun m f hm => ?_, fun ds hne hds => ?_⟩
  · have hm : (m, i) ∈ mnemonicsN.map fun p => (String.ofList p.1, p.2) := hm
    obtain ⟨⟨cs, j⟩, hcs, ⟨⟩⟩ := List.mem_map.1 hm
    obtain ⟨hN, hI⟩ := lookup_of_mem_mnemonicsN _ hcs
    rw [String.toList_ofList]
    exact ⟨hN, assembleTokens_pair_of_not_formatI hI⟩
  · have hm : (m, f) ∈ mnemonicsI.map fun p => (String.ofList p.1, p.2) := hm
    obtain ⟨⟨cs, g⟩, hcs, ⟨⟩⟩ := List.mem_map.1 hm
    obtain ⟨hI, hN⟩ := lookup_of_mem_mnemonicsI _ hcs
    rw [String.toList_ofList]
    refine ⟨hN, fun k => ?_⟩
    rw [assembleTokens_pair_of_formatI hI]
    refine ⟨fun v hk hv => ⟨wordOf v, sint_wordOf hv, ?_⟩, fun v hk hv => ?_, fun hk => ?_⟩
    · rw [operand_fits hk hv, Option.map_some]
    · rw [operand_past_range hk hv, Option.map_none]
    · rw [operand_no_decimal hk, Option.map_none]
  · rw [signedDecimal_plus, signedDecimal_minus, signedDecimal_map_digitChar hds, decimal_map_digitChar hne hds]
    exact ⟨rfl, rfl, rfl⟩

end Sys2Proof.Machine

/-! The cycle (40_cycle.md): fetch, advance, dispatch and execute (R110 to R113), which fault a step can end in and where it
leaves `pc` (R117), the depth rule (R118), and the end of a run (R115, R116). -/

namespace Sys2Proof.Machine

section StepEquations

variable {s : State}

theorem step_at_rest (h : s.status ≠ .running) : step s = .fault .notRunning := by
  cases hs : s.status with
  | running => exact absurd hs h
  | halted | faulted => simp only [step, hs, idle]

theorem step_of_fetch_none (hs : s.status = .running) (hf : fetch s = none) :
    step s = .next (s.raise .fetchOutOfRange) := by
  simp only [step, hs, hf]

theorem step_of_decode_ok {iw : IWord} {i : Instr} (hs : s.status = .running) (hf : fetch s = some iw)
    (hd : decode iw = .ok i) : step s = exec i (s.setPc (s.pc + 1#64)) := by
  simp only [step, hs, hf, hd, advance]

end StepEquations

/-- Settles O15, from the two answers of `decode`. -/
theorem stepRunsTheDecodedInstruction : Obligations.StepRunsTheDecodedInstruction := by
  intro s iw hs hpc hiw
  have hf : fetch s = some iw := (fetch_of_pcInRange hpc).trans hiw
  refine ⟨fun i hi => step_of_decode_ok hs hf hi, fun r hr => ?_⟩
  rw [step_of_decode_error hs hf hr]
  exact raises_next_raise _ _

/-- Settles O16: an index in range has a word, and the fetch of any other fails before the advance. -/
theorem fetchIsBoundChecked : Obligations.FetchIsBoundChecked := by
  refine ⟨fun s h0 h1 => ?_, fun s hs hout => ?_⟩
  · have hw := List.getElem?_eq_getElem (l := s.prog) (i := (sint s.pc).toNat) (by omega)
    exact ⟨_, hw, (fetch_of_pcInRange ⟨h0, h1⟩).trans hw⟩
  · have hf : fetch s = none := if_neg fun hpc : s.pcInRange => by have := hpc.1; have := hpc.2; omega
    rw [step_of_fetch_none hs hf]
    exact raises_next_raise _ s

/-! A settled effect is a next state, so every instruction has one, and so has every step of a Running engine. -/

theorem settle_has_next (s : State) (e : Effect State) : ∃ t, settle s e = .next t := by
  cases e with
  | ok t => exact ⟨t, rfl⟩
  | error f => exact ⟨s.raise f, rfl⟩

theorem exec_has_next (i : Instr) (s : State) : ∃ t, exec i s = .next t := by
  cases i
  case jmp k => exact ⟨s.setPc k, rfl⟩
  case halt => exact ⟨s.setStatus .halted, rfl⟩
  all_goals exact settle_has_next s _

theorem step_has_next {s : State} (hs : s.status = .running) : ∃ t, step s = .next t := by
  cases hf : fetch s with
  | none => exact ⟨_, step_of_fetch_none hs hf⟩
  | some iw =>
    cases hd : decode iw with
    | error r => exact ⟨_, step_of_decode_error hs hf hd⟩
    | ok i =>
      rw [step_of_decode_ok hs hf hd]
      exact exec_has_next i _

/-- Settles O17, from what a step with a next state can be and from the totality of fetch, decoding and dispatch. -/
theorem stepEnabledExactlyWhenRunning : Obligations.StepEnabledExactlyWhenRunning :=
  fun _ => ⟨fun ⟨_, h⟩ => (step_cases h).1, step_has_next⟩

/-- Settles O18: a Running engine has a next state, and at rest the step is not enabled rather than refused. -/
theorem dispatchIsExhaustive : Obligations.DispatchIsExhaustive := by
  refine ⟨exec_has_next, fun s r h => ?_⟩
  by_cases hs : s.status = .running
  · obtain ⟨t, ht⟩ := step_has_next hs
    rw [ht] at h
    cases h
  · rw [step_at_rest hs] at h
    cases h

/-! The classes an instruction may raise: the two others are the cycle's own, of the fetch (R111) and of the decoding (R113). -/

/-- `e` completes with a value that has `P`, or raises one of the five classes that are not the cycle's own. -/
def Yields {α : Type} (e : Effect α) (P : α → Prop) : Prop :=
  match e with
  | .ok a => P a
  | .error f => f ≠ .fetchOutOfRange ∧ f ≠ .illegalInstruction

section Yields

theorem Yields.bind {α β : Type} {e : Effect α} {k : α → Effect β} {P : α → Prop} {Q : β → Prop} (he : Yields e P)
    (hk : ∀ a, P a → Yields (k a) Q) : Yields (e >>= k) Q := by
  cases e with
  | ok a => exact hk a he
  | error f => exact he

theorem yields_error {α : Type} {f : FaultClass} {P : α → Prop} (hf : f ≠ .fetchOutOfRange ∧ f ≠ .illegalInstruction) :
    Yields (.error f) P := hf

theorem yields_ite {α : Type} {c : Prop} [Decidable c] {f : FaultClass} {e : Effect α} {P : α → Prop}
    (hf : f ≠ .fetchOutOfRange ∧ f ≠ .illegalInstruction) (he : Yields e P) : Yields (if c then .error f else e) P := by
  split
  · exact hf
  · exact he

theorem yields_need (n : Nat) (s : State) : Yields (need n s) fun _ => True :=
  yields_ite (by decide) trivial

theorem yields_top (s : State) : Yields (top s) fun _ => True := by
  rw [top]
  split
  · exact yields_error (by decide)
  · trivial

theorem yields_memRead (addr : Word) (s : State) : Yields (memRead addr s) fun _ => True :=
  yields_ite (by decide) (yields_ite (by decide) trivial)

theorem yields_narrow (r : Int) : Yields (narrow r) fun _ => True := by
  by_cases h : fitsWord r
  · rw [narrow_ok h]; trivial
  · rw [narrow_overflow h]; exact yields_error (by decide)

theorem yields_checkDivision (b a : Int) : Yields (checkDivision b a) fun _ => True :=
  yields_ite (by decide) (yields_ite (by decide) trivial)

theorem yields_divWords (b a : Word) : Yields (divWords b a) fun _ => True :=
  (yields_checkDivision _ _).bind fun _ _ => trivial

theorem yields_modWords (b a : Word) : Yields (modWords b a) fun _ => True :=
  (yields_checkDivision _ _).bind fun _ _ => trivial

theorem yields_negWord (a : Word) : Yields (negWord a) fun _ => True :=
  yields_ite (by decide) trivial

/-! Only fault entry makes a state Faulted: an effect that completes keeps it safe. -/

variable {s : State} (h : s.safe)

include h

theorem yields_pop : Yields (pop s) fun p => p.2.safe := by
  rw [pop]
  split
  · exact yields_error (by decide)
  · exact h

theorem yields_push (v : Word) : Yields (push v s) State.safe :=
  yields_ite (by decide) h

theorem yields_memWrite (addr v : Word) : Yields (memWrite addr v s) State.safe :=
  yields_ite (by decide) (yields_ite (by decide) h)

theorem yields_heapAlloc (n : Word) : Yields (heapAlloc n s) fun p => p.2.safe :=
  yields_ite (by decide) (yields_ite (by decide) h)

theorem yields_binary {f : Word → Word → Effect Word} (hf : ∀ b a, Yields (f b a) fun _ => True) :
    Yields (binary f s) State.safe :=
  (yields_need 2 s).bind fun _ _ => (yields_pop h).bind fun _ h₁ => (yields_pop h₁).bind fun _ h₂ =>
    (hf _ _).bind fun r _ => yields_push h₂ r

theorem yields_unary {f : Word → Effect Word} (hf : ∀ a, Yields (f a) fun _ => True) : Yields (unary f s) State.safe :=
  (yields_need 1 s).bind fun _ _ => (yields_pop h).bind fun _ h₁ => (hf _).bind fun r _ => yields_push h₁ r

/-- Every instruction settles an effect that keeps a safe state safe. -/
theorem exec_eq_settle (i : Instr) : ∃ e, exec i s = settle s e ∧ Yields e State.safe := by
  cases i
  case jmp k => exact ⟨.ok (s.setPc k), rfl, h⟩
  case halt => exact ⟨.ok (s.setStatus .halted), rfl, (by decide : Status.halted ≠ .faulted)⟩
  all_goals refine ⟨_, rfl, ?_⟩
  case ldc k => exact yields_push h k
  case load =>
    exact (yields_need 1 s).bind fun _ _ => (yields_pop h).bind fun _ h₁ => (yields_memRead _ _).bind fun v _ =>
      yields_push h₁ v
  case store =>
    exact (yields_need 2 s).bind fun _ _ => (yields_pop h).bind fun _ h₁ => (yields_top _).bind fun v _ =>
      yields_memWrite h₁ _ v
  case pop => exact (yields_need 1 s).bind fun _ _ => (yields_pop h).bind fun _ h₁ => h₁
  case alloc =>
    exact (yields_need 1 s).bind fun _ _ => (yields_pop h).bind fun _ h₁ => (yields_heapAlloc h₁ _).bind fun _ h₂ =>
      yields_push h₂ _
  case jz k =>
    refine (yields_need 1 s).bind fun _ _ => (yields_pop h).bind fun p h₁ => ?_
    dsimp only
    split <;> exact h₁
  case add | sub | mul => exact yields_binary h fun _ _ => yields_narrow _
  case div => exact yields_binary h yields_divWords
  case mod => exact yields_binary h yields_modWords
  case neg => exact yields_unary h yields_negWord
  case not => exact yields_unary h fun _ => trivial
  all_goals exact yields_binary h fun _ _ => trivial

/-- An instruction that faults raises one of the five classes that are not the cycle's own. -/
theorem exec_faulted {i : Instr} {t : State} (hexec : exec i s = .next t) (ht : t.status = .faulted) :
    ∃ f, f ≠ .fetchOutOfRange ∧ f ≠ .illegalInstruction ∧ t = s.raise f := by
  obtain ⟨e, he, hy⟩ := exec_eq_settle h i
  rw [he] at hexec
  obtain rfl | ⟨f, rfl, rfl⟩ := settle_cases hexec
  · exact absurd ht hy
  · exact ⟨f, hy.1, hy.2, rfl⟩

end Yields

/-- Settles O23: the fetch fails before the advance, and every other fault is raised from the advanced state. -/
theorem faultingStepLeavesPc : Obligations.FaultingStepLeavesPc := by
  intro s t h ht
  obtain ⟨hrun, ⟨hpc, rfl⟩ | ⟨hpc, iw, -, ⟨r, -, rfl⟩ | ⟨i, -, hexec⟩⟩⟩ := step_cases h
  · exact .inl ⟨rfl, hpc, rfl⟩
  · exact .inr ⟨_, by decide, rfl, hpc, rfl⟩
  · have hsafe : (s.setPc (s.pc + 1#64)).safe := by simp [State.safe, hrun]
    obtain ⟨f, hf, -, rfl⟩ := exec_faulted hsafe hexec ht
    exact .inr ⟨f, hf, rfl, hpc, rfl⟩

theorem exec_halted_iff {i : Instr} {s t : State} (hs : s.status = .running) (h : exec i s = .next t) :
    t.status = .halted ↔ i = .halt := by
  constructor
  · intro ht
    by_contra hi
    have hran : Ran i s t := exec_ran h (by simp [ht])
    have := hran.status hi
    simp [ht, hs] at this
  · rintro rfl
    cases h
    rfl

/-- Settles O21: fault entry is not Halted, and of the instructions only `halt` sets that status. -/
theorem onlyHaltEndsInSuccess : Obligations.OnlyHaltEndsInSuccess := by
  intro s t h
  obtain ⟨hrun, ⟨hpc, rfl⟩ | ⟨hpc, iw, hiw, ⟨r, hr, rfl⟩ | ⟨i, hi, hexec⟩⟩⟩ := step_cases h
  · simp [hpc]
  · simp [hiw, hr]
  · rw [exec_halted_iff ((State.setPc_status s _).trans hrun) hexec]
    refine ⟨fun hhalt => ⟨hpc, iw, hiw, hhalt ▸ hi⟩, ?_⟩
    rintro ⟨-, iw', hiw', hi'⟩
    obtain rfl : iw = iw' := Option.some.inj (hiw.symm.trans hiw')
    exact Except.ok.inj (hi.symm.trans hi')

/-! Depth. -/

/-- Too few elements underflow, whatever else is wrong with the operands (R118, R252). -/
theorem exec_short {i : Instr} {s : State} (h : s.depth < i.needs) : exec i s = .next (s.raise .stackUnderflow) := by
  have hnil : s.depth < 1 → s.stack = [] := fun hd => List.eq_nil_of_length_eq_zero (Nat.lt_one_iff.1 hd)
  cases i
  case ldc | jmp | halt => exact absurd h (Nat.not_lt_zero _)
  case load => exact (exec_empty (hnil h)).1
  case pop => exact (exec_empty (hnil h)).2.1
  case alloc => exact (exec_empty (hnil h)).2.2.1
  case jz k => exact (exec_empty (hnil h)).2.2.2 k
  case store => exact execStore_short h
  case neg | not => exact congrArg (settle s) (unary_short h)
  all_goals exact congrArg (settle s) (binary_short h)

/-- Settles O49: an instruction that is not too shallow pops and pushes what R84's columns say. -/
theorem netDepthChangeIsPushesMinusPops : Obligations.NetDepthChangeIsPushesMinusPops := by
  intro i s
  refine ⟨fun t h ht => ⟨?_, (exec_ran h ht).depth_add_pops⟩, fun hshort => ?_⟩
  · by_contra hshort
    rw [exec_short (Nat.not_le.1 hshort)] at h
    cases h
    exact ht rfl
  · rw [exec_short hshort]
    exact raises_next_raise _ s

/-! The end of a run. -/

/-- The run from `s` ends after exactly `k` steps, in `t`: the first state that is not Running (R115). -/
def EndsAfter (k : Nat) (s t : State) : Prop :=
  after k s = some t ∧ t.status ≠ .running ∧ ∀ j, j < k → ∃ u, after j s = some u ∧ u.status = .running

theorem endsAfter_zero {s t : State} : EndsAfter 0 s t ↔ s = t ∧ t.status ≠ .running := by
  simp [EndsAfter]

theorem not_endsAfter_zero {s t : State} (hs : s.status = .running) : ¬EndsAfter 0 s t := by
  rw [endsAfter_zero]
  rintro ⟨rfl, hn⟩
  exact hn hs

/-- A run that takes a step starts Running. -/
theorem EndsAfter.running {k : Nat} {s t : State} (h : EndsAfter (k + 1) s t) : s.status = .running := by
  obtain ⟨-, -, hbefore⟩ := h
  obtain ⟨u, ⟨⟩, hu⟩ := hbefore 0 k.succ_pos
  exact hu

theorem endsAfter_at_rest {k : Nat} {s t : State} (hs : s.status ≠ .running) : EndsAfter k s t ↔ k = 0 ∧ s = t := by
  cases k with
  | zero =>
    rw [endsAfter_zero]
    exact ⟨fun h => ⟨rfl, h.1⟩, fun ⟨_, h⟩ => ⟨h, h ▸ hs⟩⟩
  | succ k => exact ⟨fun h => absurd h.running hs, fun h => absurd h.1 k.succ_ne_zero⟩

theorem endsAfter_succ {s s' : State} (hs : s.status = .running) (hstep : step s = .next s') (k : Nat) (t : State) :
    EndsAfter (k + 1) s t ↔ EndsAfter k s' t := by
  simp [EndsAfter, Nat.forall_lt_succ_left', after_succ hstep, hs, -Order.lt_add_one_iff]

theorem runFor_at_rest_iff {s : State} (hs : s.status ≠ .running) (n : Nat) (t : State) :
    runFor n s = some t ↔ ∃ k, k ≤ n ∧ EndsAfter k s t := by
  simp [runFor_at_rest hs, endsAfter_at_rest hs]

/-- The loop of R115 answers the end of the run where that comes within its fuel. -/
theorem runFor_eq_some_iff {n : Nat} {s t : State} : runFor n s = some t ↔ ∃ k, k ≤ n ∧ EndsAfter k s t := by
  induction n generalizing s with
  | zero =>
    by_cases hs : s.status = .running
    · simp [runFor_zero hs, not_endsAfter_zero hs]
    · exact runFor_at_rest_iff hs 0 t
  | succ n ih =>
    by_cases hs : s.status = .running
    · obtain ⟨s', hstep⟩ := step_has_next hs
      rw [runFor_succ hs hstep, ih]
      constructor
      · rintro ⟨k, hk, h⟩
        exact ⟨k + 1, Nat.succ_le_succ hk, (endsAfter_succ hs hstep k t).2 h⟩
      · rintro ⟨_ | k, hk, h⟩
        · exact absurd h (not_endsAfter_zero hs)
        · exact ⟨k, Nat.le_of_succ_le_succ hk, (endsAfter_succ hs hstep k t).1 h⟩
    · exact runFor_at_rest_iff hs (n + 1) t

/-- Settles O4, by induction on the fuel: a step from Running shortens the run by one. -/
theorem runStopsAtTheFirstStateNotRunning : Obligations.RunStopsAtTheFirstStateNotRunning :=
  fun _ _ _ => runFor_eq_some_iff

/-- Settles O5: the jump undoes the advance, so the step answers the state it started from. -/
theorem jumpToItselfNeverEnds : Obligations.JumpToItselfNeverEnds := by
  intro s iw hs hpc hiw hi
  have hstep : step s = .next s := step_of_decode_ok hs ((fetch_of_pcInRange hpc).trans hiw) hi
  refine ⟨hstep, fun n => ?_⟩
  induction n with
  | zero => exact runFor_zero hs
  | succ n ih => rw [runFor_succ hs hstep, ih]

end Sys2Proof.Machine

/-! The stack instructions (41_stack.md R130, R131): what `ldc` and `pop` answer in each of their cases. -/

namespace Sys2Proof.Machine

theorem exec_ldc_ok {s : State} (h : ¬s.stackFull) (k : Word) : exec (.ldc k) s = .next (s.setStack (k :: s.stack)) := by
  rw [exec, execLdc, push_ok h, settle_ok]

theorem exec_ldc_full {s : State} (h : s.stackFull) (k : Word) : exec (.ldc k) s = .next (s.raise .capacityFault) := by
  rw [exec, execLdc, push_full h, settle_error]

/-- Settles O29, from the answers of `ldc` below STACK_CAP and at it. -/
theorem ldcPushesItsConstant : Obligations.LdcPushesItsConstant := by
  intro s k
  refine ⟨fun hroom => exec_ldc_ok hroom k, fun hfull => ?_⟩
  rw [exec_ldc_full hfull k]
  exact raises_next_raise _ s

/-- Settles O30, from the answer of `pop` on a stack with a top and from its underflow on the empty one. -/
theorem popRemovesTheTop : Obligations.PopRemovesTheTop := by
  intro s
  refine ⟨fun _ _ hs => execPop_cons hs, fun hnil => ?_⟩
  obtain ⟨-, hpop, -⟩ := exec_empty hnil
  rw [exec, hpop]
  exact raises_next_raise _ s

end Sys2Proof.Machine

/-! The memory instructions (42_memory_ops.md R140, R142): what `load` and `alloc` answer in each of their cases. -/

namespace Sys2Proof.Machine

theorem exec_load_fault {s : State} {addr : Word} {rest : List Word} (hs : s.stack = addr :: rest)
    (h : sint addr < 0 ∨ s.mem.len ≤ (sint addr).toNat) : exec .load s = .next (s.raise .memoryFault) := by
  rw [exec, execLoad_cons hs, memRead_fault (s := s.setStack rest) h]
  rfl

/-- Settles O31: the read completes exactly in `0 .. mlen-1`, and the pop has made room for the word read. -/
theorem loadReadsVariableMemory : Obligations.LoadReadsVariableMemory := by
  intro s hcap
  refine ⟨fun addr rest hs => ⟨?_, ?_⟩, fun hnil => ?_⟩
  · rintro ⟨h0, h1⟩
    exact exec_load_ok hcap hs h0 (by omega)
  · intro hout
    rw [exec_load_fault hs (by omega)]
    exact raises_next_raise _ s
  · rw [exec_short (by simp [State.depth, hnil, Instr.needs])]
    exact raises_next_raise _ s

section Alloc

variable {s : State} {n : Word} {rest : List Word} (hs : s.stack = n :: rest)

include hs

theorem exec_alloc_ok (hcap : s.stackWithinCap) (h0 : 0 ≤ sint n) (h1 : s.heap.len + (sint n).toNat ≤ s.heapCap) :
    exec .alloc s = .next ((s.setStack (wordOf s.heap.len :: rest)).setHeap
      (s.heap.growTo (s.heap.len + (sint n).toNat))) := by
  rw [exec, execAlloc_cons hs, heapAlloc_ok (s := s.setStack rest) h0 h1, Except.bind, push_ok]
  · rfl
  · exact not_full_of_popped (s := s) hcap hs

theorem exec_alloc_negative (h : sint n < 0) : exec .alloc s = .next (s.raise .memoryFault) := by
  rw [exec, execAlloc_cons hs, heapAlloc_negative h]
  rfl

theorem exec_alloc_full (h0 : 0 ≤ sint n) (h1 : s.heapCap < s.heap.len + (sint n).toNat) :
    exec .alloc s = .next (s.raise .capacityFault) := by
  rw [exec, execAlloc_cons hs, heapAlloc_full (s := s.setStack rest) h0 h1]
  rfl

end Alloc

/-- A heap length within HEAP_CAP is the value of the word that `alloc` pushes for it (R4, R57). -/
theorem sint_heap_len {s : State} (h : s.heap.len ≤ s.heapCap) : sint (wordOf s.heap.len) = s.heap.len := by
  have hmax := s.heapCap_le
  exact sint_wordOf (by simp only [fitsWord, wordMin, wordMax]; omega)

/-- Settles O33: the base fits a word since the grown heap is within HEAP_CAP, and no cell past the old length is listed. -/
theorem allocReturnsTheOldLengthAndGrows : Obligations.AllocReturnsTheOldLengthAndGrows := by
  intro s hcap hwf
  refine ⟨fun n rest hs => ⟨?_, ?_, ?_⟩, fun hnil => ?_⟩
  · rintro ⟨h0, h1⟩
    refine ⟨_, _, exec_alloc_ok hs hcap h0 (by omega), rfl, sint_heap_len (by omega), ?_,
      fun a hpast _ => Memory.get_past (m := s.heap) hwf hpast, fun _ _ => rfl⟩
    rw [State.setHeap_heap, Memory.growTo_len]
    omega
  · intro hneg
    rw [exec_alloc_negative hs hneg]
    exact raises_next_raise _ s
  · rintro ⟨h0, h1⟩
    rw [exec_alloc_full hs h0 (by omega)]
    exact raises_next_raise _ s
  · rw [exec_short (by simp [State.depth, hnil, Instr.needs])]
    exact raises_next_raise _ s

end Sys2Proof.Machine

/-! The control instructions (43_control.md R160, R161, R162): what `jmp`, `jz` and `halt` answer. -/

namespace Sys2Proof.Machine

section Jz

variable {s : State} {v : Word} {rest : List Word} (hs : s.stack = v :: rest)

include hs

theorem exec_jz_taken (hv : v = 0#64) (k : Word) : exec (.jz k) s = .next ((s.setStack rest).setPc k) := by
  rw [exec, execJz_cons hs, if_pos hv]

theorem exec_jz_not_taken (hv : v ≠ 0#64) (k : Word) : exec (.jz k) s = .next (s.setStack rest) := by
  rw [exec, execJz_cons hs, if_neg hv]

end Jz

/-- Settles O35: the dispatch gives `jmp` its meaning, which is the one write of `pc`. -/
theorem jmpWritesPc : Obligations.JmpWritesPc := by
  intro s k
  rw [exec, execJmp]

/-- Settles O36, from the answers of `jz` on a top that is 0 and on another, and from its underflow on the empty stack. -/
theorem jzJumpsExactlyOnZero : Obligations.JzJumpsExactlyOnZero := by
  intro s k
  refine ⟨fun v rest hs => ⟨fun hv => exec_jz_taken hs hv k, fun hv => exec_jz_not_taken hs hv k⟩, fun hnil => ?_⟩
  rw [exec_short (by simp [State.depth, hnil, Instr.needs])]
  exact raises_next_raise _ s

/-- Settles O37: the dispatch gives `halt` its meaning, which is the one write of `status`. -/
theorem haltOnlySetsStatus : Obligations.HaltOnlySetsStatus := by
  intro s
  rw [exec, execHalt]

end Sys2Proof.Machine

/-! Integer arithmetic (44_arithmetic.md R180 to R188): what a binary or unary form answers by what its function answers, and
the integer facts of the truncating division. -/

namespace Sys2Proof.Machine

theorem raises_short (i : Instr) {s : State} (h : s.depth < i.needs) : Raises .stackUnderflow s (exec i s) := by
  rw [exec_short h]
  exact raises_next_raise _ s

section BinaryForm

variable {f : Word → Word → Effect Word} {s : State} {a b : Word} {rest : List Word} (hs : s.stack = a :: b :: rest)

include hs

theorem settle_binary_ok {r : Word} (hcap : s.stackWithinCap) (hf : f b a = .ok r) :
    settle s (binary f s) = .next (s.setStack (r :: rest)) := by
  have hroom : ¬(s.setStack rest).stackFull := fun hfull => by
    have := hcap _ hfull
    simp [State.depth, hs] at this
  rw [binary_cons hs, hf, Except.bind, push_ok hroom]
  rfl

theorem raises_binary_error {c : FaultClass} (hf : f b a = .error c) : Raises c s (settle s (binary f s)) := by
  rw [binary_cons hs, hf]
  exact raises_next_raise c s

end BinaryForm

section UnaryForm

variable {f : Word → Effect Word} {s : State} {a : Word} {rest : List Word} (hs : s.stack = a :: rest)

include hs

theorem settle_unary_ok {r : Word} (hcap : s.stackWithinCap) (hf : f a = .ok r) :
    settle s (unary f s) = .next (s.setStack (r :: rest)) := by
  rw [unary_cons hs, hf, Except.bind, push_ok (not_full_of_popped hcap hs)]
  rfl

theorem raises_unary_error {c : FaultClass} (hf : f a = .error c) : Raises c s (settle s (unary f s)) := by
  rw [unary_cons hs, hf]
  exact raises_next_raise c s

end UnaryForm

/-! Division: the form that `div` and `mod` share, and the facts that its results fit a word. -/

/-- The form of `div` and `mod` (R186, R187): the checks of the division, then the word of the exact result. -/
def checkedDivision (g : Int → Int → Int) (b a : Word) : Effect Word :=
  (checkDivision (sint b) (sint a)).bind fun _ => .ok (wordOf (g (sint b) (sint a)))

theorem exec_div_eq (s : State) : exec .div s = settle s (binary (checkedDivision Int.tdiv) s) := rfl

theorem exec_mod_eq (s : State) :
    exec .mod s = settle s (binary (checkedDivision fun b a => b - a * b.tdiv a) s) := rfl

theorem checkDivision_zero {b a : Int} (h : a = 0) : checkDivision b a = .error .divisionFault := if_pos h

theorem checkDivision_overflow {b a : Int} (h : b = wordMin ∧ a = -1) : checkDivision b a = .error .overflowFault := by
  rw [checkDivision, if_neg (by omega), if_pos h]

theorem checkDivision_ok {b a : Int} (h : a ≠ 0 ∧ ¬(b = wordMin ∧ a = -1)) : checkDivision b a = .ok () := by
  rw [checkDivision, if_neg h.1, if_neg h.2]

/-- The quotient is at most half the dividend in size, but for a divisor 1, and -1, which only MIN does not admit. -/
theorem fitsWord_tdiv {b a : Int} (hb : fitsWord b) (h : a ≠ 0 ∧ ¬(b = wordMin ∧ a = -1)) : fitsWord (b.tdiv a) := by
  simp only [fitsWord, wordMin, wordMax] at hb h ⊢
  obtain rfl | rfl | ha : a = 1 ∨ a = -1 ∨ 2 ≤ a.natAbs := by omega
  · rwa [Int.tdiv_one]
  · rw [Int.tdiv_neg, Int.tdiv_one]
    omega
  · have hhalf : (b.tdiv a).natAbs ≤ b.natAbs / 2 := by
      rw [Int.natAbs_tdiv]
      exact Nat.div_le_div_left ha (by decide)
    omega

theorem natAbs_tmod_lt (b : Int) {a : Int} (h : a ≠ 0) : (b.tmod a).natAbs < a.natAbs := by
  rw [Int.natAbs_tmod]
  exact Nat.mod_lt _ (Int.natAbs_pos.2 h)

theorem fitsWord_tmod {b a : Int} (ha : fitsWord a) (h : a ≠ 0) : fitsWord (b.tmod a) := by
  have hlt := natAbs_tmod_lt b h
  simp only [fitsWord, wordMin, wordMax] at ha ⊢
  omega

/-- The remainder is zero or has the sign of the dividend (R185). -/
theorem tmod_sign (b a : Int) : b.tmod a = 0 ∨ (0 < b.tmod a ∧ 0 < b) ∨ (b.tmod a < 0 ∧ b < 0) := by
  have hsign := Int.sign_tmod b a
  split at hsign
  · exact .inl (Int.sign_eq_zero_iff_zero.1 hsign)
  · rcases lt_trichotomy b 0 with hb | rfl | hb
    · exact .inr (.inr ⟨Int.sign_eq_neg_one_iff_neg.1 (hsign.trans (Int.sign_eq_neg_one_of_neg hb)), hb⟩)
    · exact .inl (Int.zero_tmod a)
    · exact .inr (.inl ⟨Int.sign_eq_one_iff_pos.1 (hsign.trans (Int.sign_eq_one_of_pos hb)), hb⟩)

/-- Rounding toward zero and rounding down differ only on an inexact quotient of operands of different sign (R185). -/
theorem tdiv_eq_fdiv_off_mixed_signs {b a : Int} (h0 : a ≠ 0)
    (h : (0 ≤ a ∧ 0 ≤ b) ∨ (a ≤ 0 ∧ b ≤ 0) ∨ a ∣ b) : b.tdiv a = b.fdiv a := by
  by_cases hdvd : a ∣ b
  · rw [Int.tdiv_eq_fdiv, if_pos hdvd, Int.add_zero]
  · have hne : b ≠ 0 := fun hzero => hdvd (hzero ▸ dvd_zero a)
    rw [Int.tdiv_eq_fdiv, if_neg hdvd]
    obtain ⟨ha, hb⟩ | ⟨ha, hb⟩ | hd := h
    · rw [if_pos hb, if_pos ha, Int.add_zero]
    · rw [if_neg (by omega), if_neg (by omega), Int.sign_eq_neg_one_of_neg (by omega)]
      omega
    · exact absurd hd hdvd

section Division

variable {s : State} {a b : Word} {rest : List Word} (hs : s.stack = a :: b :: rest)

include hs

/-- A failed check of the operands is the fault of both instructions. -/
theorem div_mod_raise {c : FaultClass} (hc : checkDivision (sint b) (sint a) = .error c) :
    Raises c s (exec .div s) ∧ Raises c s (exec .mod s) := by
  have hf (g : Int → Int → Int) : checkedDivision g b a = .error c := by rw [checkedDivision, hc, Except.bind]
  rw [exec_div_eq, exec_mod_eq]
  exact ⟨raises_binary_error hs (hf _), raises_binary_error hs (hf _)⟩

variable (hcap : s.stackWithinCap) (h : sint a ≠ 0 ∧ ¬(sint b = wordMin ∧ sint a = -1))

include hcap h

theorem settle_checkedDivision_ok (g : Int → Int → Int) :
    settle s (binary (checkedDivision g) s) = .next (s.setStack (wordOf (g (sint b) (sint a)) :: rest)) :=
  settle_binary_ok hs hcap (by rw [checkedDivision, checkDivision_ok h, Except.bind])

theorem exec_div_ok :
    ∃ q, exec .div s = .next (s.setStack (q :: rest)) ∧ sint q = (sint b).tdiv (sint a) := by
  rw [exec_div_eq]
  exact ⟨_, settle_checkedDivision_ok hs hcap h _, sint_wordOf (fitsWord_tdiv (sint_fits b) h)⟩

theorem exec_mod_ok :
    ∃ r, exec .mod s = .next (s.setStack (r :: rest)) ∧ sint r = (sint b).tmod (sint a) := by
  have hfits := fitsWord_tmod (b := sint b) (sint_fits a) h.1
  rw [Int.tmod_def] at hfits ⊢
  rw [exec_mod_eq]
  exact ⟨_, settle_checkedDivision_ok hs hcap h _, sint_wordOf hfits⟩

end Division

/-- Settles O41: the checks decide which of its answers `div` gives, and a quotient past them fits a word. -/
theorem divTruncatesTowardZero : Obligations.DivTruncatesTowardZero := by
  intro s hcap
  refine ⟨fun a b rest hs => ⟨fun hzero => ?_, fun hmin => ?_, fun h => exec_div_ok hs hcap h⟩, raises_short .div⟩
  · exact (div_mod_raise hs (checkDivision_zero hzero)).1
  · exact (div_mod_raise hs (checkDivision_overflow hmin)).1

/-- Settles O42: the checks are those of `div`, and the remainder is smaller than the divisor, so it fits a word. -/
theorem modIsTheTruncatedRemainder : Obligations.ModIsTheTruncatedRemainder := by
  intro s hcap
  refine ⟨fun a b rest hs => ⟨fun hzero => ?_, fun hmin => ?_, fun h => ?_⟩, raises_short .mod⟩
  · exact (div_mod_raise hs (checkDivision_zero hzero)).2
  · exact (div_mod_raise hs (checkDivision_overflow hmin)).2
  · rw [← Int.tmod_def]
    exact exec_mod_ok hs hcap h

/-- Settles O43: the two words are the exact quotient and remainder, whose law, bound and sign are those of the integers. -/
theorem quotientAndRemainderObeyTheDivisionLaw : Obligations.QuotientAndRemainderObeyTheDivisionLaw := by
  intro s a b rest hcap hs
  refine ⟨fun h => ?_, fun hzero => div_mod_raise hs (checkDivision_zero hzero),
    fun hmin => div_mod_raise hs (checkDivision_overflow hmin)⟩
  obtain ⟨q, hdiv, hq⟩ := exec_div_ok hs hcap h
  obtain ⟨r, hmod, hr⟩ := exec_mod_ok hs hcap h
  refine ⟨q, r, hdiv, hmod, hq, ?_, ?_, ?_⟩
  · rw [hq, hr, Int.mul_tdiv_add_tmod]
  · rw [hr]
    exact natAbs_tmod_lt _ h.1
  · rw [hr]
    exact tmod_sign _ _

/-- Settles O44: the two quotients agree, and so do the two remainders, each the dividend less divisor times quotient. -/
theorem divisionAgreesWithFlooringOffMixedSigns : Obligations.DivisionAgreesWithFlooringOffMixedSigns := by
  intro s a b rest hcap hs h0 hmin hsigns
  obtain ⟨q, hdiv, hq⟩ := exec_div_ok hs hcap ⟨h0, hmin⟩
  obtain ⟨r, hmod, hr⟩ := exec_mod_ok hs hcap ⟨h0, hmin⟩
  have hquot := tdiv_eq_fdiv_off_mixed_signs h0 hsigns
  refine ⟨q, r, hdiv, hq.trans hquot, hmod, ?_⟩
  rw [hr, Int.tmod_def, Int.fmod_def, hquot]

/-! Sum, difference, product and negation. -/

/-- The answers of an instruction that narrows its exact result `g b a` (R181): `add`, `sub` and `mul`. -/
theorem narrowed_exact_or_raises {g : Int → Int → Int} {s : State} {a b : Word} {rest : List Word}
    (hs : s.stack = a :: b :: rest) (hcap : s.stackWithinCap) {i : Instr}
    (hi : exec i s = settle s (binary (fun b a => narrow (g (sint b) (sint a))) s)) :
    (fitsWord (g (sint b) (sint a)) →
      ∃ r, exec i s = .next (s.setStack (r :: rest)) ∧ sint r = g (sint b) (sint a)) ∧
    (¬fitsWord (g (sint b) (sint a)) → Raises .overflowFault s (exec i s)) := by
  rw [hi]
  exact ⟨fun hfits => ⟨_, settle_binary_ok hs hcap (narrow_ok hfits), sint_wordOf hfits⟩,
    fun hout => raises_binary_error hs (narrow_overflow hout)⟩

/-- Settles O38: `add` narrows the sum. -/
theorem addIsExactOrFaults : Obligations.AddIsExactOrFaults := fun _ hcap =>
  ⟨fun _ _ _ hs => narrowed_exact_or_raises (g := (· + ·)) hs hcap rfl, raises_short .add⟩

/-- Settles O39: `sub` narrows the difference, the top being subtracted. -/
theorem subIsExactOrFaults : Obligations.SubIsExactOrFaults := fun _ hcap =>
  ⟨fun _ _ _ hs => narrowed_exact_or_raises (g := (· - ·)) hs hcap rfl, raises_short .sub⟩

/-- Settles O40: `mul` narrows the product. -/
theorem mulIsExactOrFaults : Obligations.MulIsExactOrFaults := fun _ hcap =>
  ⟨fun _ _ _ hs => narrowed_exact_or_raises (g := (· * ·)) hs hcap rfl, raises_short .mul⟩

theorem negWord_min {a : Word} (h : sint a = wordMin) : negWord a = .error .overflowFault := if_pos h

theorem negWord_ok {a : Word} (h : sint a ≠ wordMin) : negWord a = .ok (wordOf (-sint a)) := if_neg h

theorem fitsWord_neg {a : Int} (ha : fitsWord a) (h : a ≠ wordMin) : fitsWord (-a) := by
  simp only [fitsWord, wordMin, wordMax] at ha h ⊢
  omega

/-- Settles O45: MIN is the one word whose negation does not fit. -/
theorem negFaultsOnlyAtMin : Obligations.NegFaultsOnlyAtMin := by
  intro s hcap
  refine ⟨fun a rest hs => ⟨fun h => ?_, fun hmin => ?_⟩, fun hnil => ?_⟩
  · exact ⟨_, settle_unary_ok hs hcap (negWord_ok h), sint_wordOf (fitsWord_neg (sint_fits a) h)⟩
  · exact raises_unary_error hs (negWord_min hmin)
  · exact raises_short .neg (by simp [State.depth, hnil, Instr.needs])

end Sys2Proof.Machine

/-! Logic (45_logic.md R210 to R213): only the word 1 is true, and a truth value is pushed as the word 1 or 0. -/

namespace Sys2Proof.Machine

theorem truth_iff (x : Word) : truth x = true ↔ x = 1#64 := decide_eq_true_iff

theorem boolWord_truth_and (b a : Word) :
    boolWord (truth b && truth a) = if a = 1#64 ∧ b = 1#64 then 1#64 else 0#64 := by
  simp only [boolWord, Bool.and_eq_true, truth_iff, and_comm]

theorem boolWord_truth_or (b a : Word) :
    boolWord (truth b || truth a) = if a = 1#64 ∨ b = 1#64 then 1#64 else 0#64 := by
  simp only [boolWord, Bool.or_eq_true, truth_iff, or_comm]

theorem boolWord_not_truth (a : Word) : boolWord (!truth a) = if a = 1#64 then 0#64 else 1#64 := by
  simp only [boolWord, Bool.not_eq_true', ← Bool.not_eq_true, truth_iff, ite_not]

/-- Settles O46: each function always answers a word, so StackUnderflow is left as the only fault. -/
theorem logicTreatsOnlyTheWordOneAsTrue : Obligations.LogicTreatsOnlyTheWordOneAsTrue := by
  intro s hcap
  refine ⟨fun a b rest hs => ⟨?_, ?_⟩, fun a rest hs => ?_, fun hshort => ⟨?_, ?_⟩, fun hnil => ?_⟩
  · exact settle_binary_ok hs hcap (congrArg Except.ok (boolWord_truth_and b a))
  · exact settle_binary_ok hs hcap (congrArg Except.ok (boolWord_truth_or b a))
  · exact settle_unary_ok hs hcap (congrArg Except.ok (boolWord_not_truth a))
  · exact raises_short .and hshort
  · exact raises_short .or hshort
  · exact raises_short .not (by simp [State.depth, hnil, Instr.needs])

end Sys2Proof.Machine

/-! Comparison (46_compare.md R230 to R236): the word that says whether a relation holds, and the trichotomy of the integers. -/

namespace Sys2Proof.Machine

theorem boolWord_decide (p : Prop) [Decidable p] : boolWord (decide p) = if p then 1#64 else 0#64 := by
  simp only [boolWord, decide_eq_true_eq]

theorem sint_ite_one_zero (p : Prop) [Decidable p] : sint (if p then 1#64 else 0#64) = if p then 1 else 0 :=
  apply_ite sint p 1#64 0#64

theorem ite_one_zero_eq_one_iff (p : Prop) [Decidable p] : (if p then 1#64 else 0#64) = 1#64 ↔ p :=
  ite_eq_left_iff.trans ⟨fun h => by_contra fun hp => absurd (h hp) (by decide), fun hp hn => absurd hp hn⟩

/-- The answer of an instruction that pushes whether `b rel a` holds (R230). -/
theorem comparison_answers {rel : Int → Int → Prop} [DecidableRel rel] {s : State} {a b : Word} {rest : List Word}
    (hs : s.stack = a :: b :: rest) (hcap : s.stackWithinCap) {i : Instr}
    (hi : exec i s = settle s (binary (fun b a => .ok (compareWords (fun x y => decide (rel x y)) b a)) s)) :
    exec i s = .next (s.setStack ((if rel (sint b) (sint a) then 1#64 else 0#64) :: rest)) :=
  hi.trans (settle_binary_ok hs hcap (congrArg Except.ok (boolWord_decide _)))

theorem comparison_needs_two {i : Instr} (hi : i ∈ [Instr.eq, .ne, .lt, .le, .gt, .ge]) : i.needs = 2 := by
  simp only [List.mem_cons, List.not_mem_nil, or_false] at hi
  obtain rfl | rfl | rfl | rfl | rfl | rfl := hi <;> rfl

/-- Settles O47: the six instructions are one form, each with its own relation on the signed values. -/
theorem comparisonsAreSigned : Obligations.ComparisonsAreSigned := by
  intro s hcap
  refine ⟨fun a b rest hs => ⟨?_, ?_, ?_, ?_, ?_, ?_⟩, fun hshort i hi => ?_⟩
  · exact comparison_answers (rel := (· = ·)) hs hcap rfl
  · exact comparison_answers (rel := (· ≠ ·)) hs hcap rfl
  · exact comparison_answers (rel := (· < ·)) hs hcap rfl
  · exact comparison_answers (rel := (· ≤ ·)) hs hcap rfl
  · exact comparison_answers (rel := (· > ·)) hs hcap rfl
  · exact comparison_answers (rel := (· ≥ ·)) hs hcap rfl
  · exact raises_short i ((comparison_needs_two hi).symm ▸ hshort)

/-- Settles O48: the words pushed are those of O47, and of `b < a`, `b = a` and `b > a` exactly one holds. -/
theorem comparisonsSplitEveryPair : Obligations.ComparisonsSplitEveryPair := by
  intro s a b rest hcap hs
  obtain ⟨heq, hne, hlt, hle, hgt, hge⟩ := (comparisonsAreSigned s hcap).1 a b rest hs
  refine ⟨_, _, _, _, _, _, heq, hne, hlt, hle, hgt, hge, ?_⟩
  simp only [sint_ite_one_zero, ite_one_zero_eq_one_iff]
  rcases lt_trichotomy (sint b) (sint a) with h | h | h
  · simp [h, h.le, h.ne, h.not_gt, h.not_ge]
  · simp [h]
  · simp [h, h.le, h.ne', h.not_gt, h.not_ge]

end Sys2Proof.Machine

/-! Faults (60_exceptions.md R250 to R260): the reasons for which an instruction raises a fault, which class each of them
raises, and when a step raises MemoryFault. -/

namespace Sys2Proof.Machine

/-- Why instruction `i` raises a fault in the state `s` (R252, R254 to R256, R258), and the class it raises. -/
inductive FaultReason (i : Instr) (s : State) : FaultClass → Prop
  | tooShallow (h : s.depth < i.needs) : FaultReason i s .stackUnderflow
  | zeroDivisor {b : Word} {rest : List Word} (hi : i = .div ∨ i = .mod) (hs : s.stack = 0#64 :: b :: rest) :
      FaultReason i s .divisionFault
  | quotient {a b : Word} {rest : List Word} (hi : i = .div ∨ i = .mod) (hs : s.stack = a :: b :: rest)
      (h : sint b = wordMin ∧ sint a = -1) : FaultReason i s .overflowFault
  | sum {a b : Word} {rest : List Word} (hi : i = .add) (hs : s.stack = a :: b :: rest)
      (h : ¬fitsWord (sint b + sint a)) : FaultReason i s .overflowFault
  | difference {a b : Word} {rest : List Word} (hi : i = .sub) (hs : s.stack = a :: b :: rest)
      (h : ¬fitsWord (sint b - sint a)) : FaultReason i s .overflowFault
  | product {a b : Word} {rest : List Word} (hi : i = .mul) (hs : s.stack = a :: b :: rest)
      (h : ¬fitsWord (sint b * sint a)) : FaultReason i s .overflowFault
  | negation {a : Word} {rest : List Word} (hi : i = .neg) (hs : s.stack = a :: rest) (h : sint a = wordMin) :
      FaultReason i s .overflowFault
  | loadAddress {addr : Word} {rest : List Word} (hi : i = .load) (hs : s.stack = addr :: rest)
      (h : sint addr < 0 ∨ s.mem.len ≤ sint addr) : FaultReason i s .memoryFault
  | storeAddress {addr v : Word} {rest : List Word} (hi : i = .store) (hs : s.stack = addr :: v :: rest)
      (h : sint addr < 0) : FaultReason i s .memoryFault
  | allocLength {n : Word} {rest : List Word} (hi : i = .alloc) (hs : s.stack = n :: rest) (h : sint n < 0) :
      FaultReason i s .memoryFault
  | stackGrowth {k : Word} (hi : i = .ldc k) (h : s.stackFull) : FaultReason i s .capacityFault
  | memoryGrowth {addr v : Word} {rest : List Word} (hi : i = .store) (hs : s.stack = addr :: v :: rest)
      (h0 : 0 ≤ sint addr) (h : (s.memCap : Int) < sint addr + 1) : FaultReason i s .capacityFault
  | heapGrowth {n : Word} {rest : List Word} (hi : i = .alloc) (hs : s.stack = n :: rest)
      (h0 : 0 ≤ sint n) (h : (s.heapCap : Int) < s.heap.len + sint n) : FaultReason i s .capacityFault

theorem raises_of_checkDivision {i : Instr} {s : State} {a b : Word} {rest : List Word} {c : FaultClass}
    (hi : i = .div ∨ i = .mod) (hs : s.stack = a :: b :: rest) (hc : checkDivision (sint b) (sint a) = .error c) :
    Raises c s (exec i s) := by
  obtain ⟨hdiv, hmod⟩ := div_mod_raise hs hc
  obtain rfl | rfl := hi
  · exact hdiv
  · exact hmod

/-- Each reason makes the instruction raise its class. -/
theorem FaultReason.raises {i : Instr} {s : State} {c : FaultClass} (h : FaultReason i s c) : Raises c s (exec i s) := by
  cases h with
  | tooShallow h => exact raises_short i h
  | zeroDivisor hi hs => exact raises_of_checkDivision hi hs (checkDivision_zero rfl)
  | quotient hi hs h => exact raises_of_checkDivision hi hs (checkDivision_overflow h)
  | sum hi hs h | difference hi hs h | product hi hs h =>
    subst hi
    exact raises_binary_error hs (narrow_overflow h)
  | negation hi hs h =>
    subst hi
    exact raises_unary_error hs (negWord_min h)
  | loadAddress hi hs h =>
    rw [hi, exec_load_fault hs (by omega)]
    exact raises_next_raise _ s
  | storeAddress hi hs h =>
    rw [hi, exec_store_negative hs h]
    exact raises_next_raise _ s
  | allocLength hi hs h =>
    rw [hi, exec_alloc_negative hs h]
    exact raises_next_raise _ s
  | stackGrowth hi h =>
    rw [hi, exec_ldc_full h]
    exact raises_next_raise _ s
  | memoryGrowth hi hs h0 h =>
    rw [hi, exec_store_full hs h0 (by omega)]
    exact raises_next_raise _ s
  | heapGrowth hi hs h0 h =>
    rw [hi, exec_alloc_full hs h0 (by omega)]
    exact raises_next_raise _ s

/-! The fault of an operation, read back to what was wrong with its operands. -/

theorem narrow_error {r : Int} {c : FaultClass} (h : narrow r = .error c) : c = .overflowFault ∧ ¬fitsWord r := by
  by_cases hfits : fitsWord r
  · rw [narrow_ok hfits] at h
    cases h
  · rw [narrow_overflow hfits] at h
    cases h
    exact ⟨rfl, hfits⟩

theorem negWord_error {a : Word} {c : FaultClass} (h : negWord a = .error c) : c = .overflowFault ∧ sint a = wordMin := by
  by_cases hmin : sint a = wordMin
  · rw [negWord_min hmin] at h
    cases h
    exact ⟨rfl, hmin⟩
  · rw [negWord_ok hmin] at h
    cases h

theorem checkedDivision_error {g : Int → Int → Int} {b a : Word} {c : FaultClass}
    (h : checkedDivision g b a = .error c) :
    (c = .divisionFault ∧ a = 0#64) ∨ (c = .overflowFault ∧ sint b = wordMin ∧ sint a = -1) := by
  rw [checkedDivision] at h
  by_cases hzero : sint a = 0
  · rw [checkDivision_zero hzero] at h
    cases h
    exact .inl ⟨rfl, BitVec.eq_of_toInt_eq hzero⟩
  · by_cases hmin : sint b = wordMin ∧ sint a = -1
    · rw [checkDivision_overflow hmin] at h
      cases h
      exact .inr ⟨rfl, hmin⟩
    · rw [checkDivision_ok ⟨hzero, hmin⟩] at h
      cases h

theorem memRead_error {addr : Word} {s : State} {c : FaultClass} (h : memRead addr s = .error c) :
    c = .memoryFault ∧ (sint addr < 0 ∨ s.mem.len ≤ sint addr) := by
  by_cases hout : sint addr < 0 ∨ s.mem.len ≤ sint addr
  · rw [memRead_fault (by omega)] at h
    cases h
    exact ⟨rfl, hout⟩
  · rw [memRead_ok (by omega) (by omega)] at h
    cases h

/-! What an outcome that is fault entry for `c` says of the effect that was settled. -/

section Settled

variable {s : State} {c : FaultClass}

theorem Raises.class_eq {d : FaultClass} (h : Raises c s (.next (s.raise d))) : c = d := by
  obtain ⟨t, ht, hfault⟩ := h
  cases ht
  exact (Option.some.inj hfault.cause_is).symm

theorem Raises.not_safe {t : State} (h : Raises c s (.next t)) : ¬t.safe := by
  obtain ⟨t', ht', hfault⟩ := h
  cases ht'
  exact fun hsafe => hsafe hfault.status_faulted

theorem raises_push {v : Word} {u : State} (h : Raises c s (settle s (push v u))) (hu : u.safe) :
    c = .capacityFault ∧ u.stackFull := by
  by_cases hfull : u.stackFull
  · rw [push_full hfull] at h
    exact ⟨h.class_eq, hfull⟩
  · rw [push_ok hfull] at h
    exact absurd hu h.not_safe

/-- Where the depth is within STACK_CAP, there is room for a push on any shorter stack. -/
theorem not_full_of_shorter {l : List Word} (hcap : s.stackWithinCap) (hl : l.length < s.depth) :
    ¬(s.setStack l).stackFull :=
  fun hfull => Nat.not_le.2 hl (hcap _ hfull)

variable (hsafe : s.safe)

include hsafe

theorem reason_of_raises_store (hdeep : 2 ≤ s.depth) (h : Raises c s (exec .store s)) : FaultReason .store s c := by
  obtain ⟨addr, v, rest, hs⟩ := stack_two hdeep
  by_cases hneg : sint addr < 0
  · rw [exec_store_negative hs hneg] at h
    obtain rfl := h.class_eq
    exact .storeAddress rfl hs hneg
  by_cases hgrow : (s.memCap : Int) < sint addr + 1
  · rw [exec_store_full hs (by omega) (by omega)] at h
    obtain rfl := h.class_eq
    exact .memoryGrowth rfl hs (by omega) hgrow
  rw [exec_store_ok hs (by omega) (by omega)] at h
  exact absurd hsafe h.not_safe

variable (hroom : c = .capacityFault → s.stackWithinCap)

include hroom

/-- A form that computes a word and pushes it in the place of its operands raises what the computation raises. -/
theorem raises_bind_push {e : Effect Word} {l : List Word} (hl : l.length < s.depth)
    (h : Raises c s (settle s (e.bind fun r => push r (s.setStack l)))) : e = .error c := by
  cases e with
  | error d => rw [Raises.class_eq h]
  | ok r =>
    obtain ⟨hc, hfull⟩ := raises_push (u := s.setStack l) h hsafe
    exact absurd hfull (not_full_of_shorter (hroom hc) hl)

theorem raises_binary {f : Word → Word → Effect Word} (hdeep : 2 ≤ s.depth)
    (h : Raises c s (settle s (binary f s))) : ∃ a b rest, s.stack = a :: b :: rest ∧ f b a = .error c := by
  obtain ⟨a, b, rest, hs⟩ := stack_two hdeep
  rw [binary_cons hs] at h
  exact ⟨a, b, rest, hs, raises_bind_push hsafe hroom (by simp [State.depth, hs]) h⟩

theorem raises_unary {f : Word → Effect Word} (hdeep : 1 ≤ s.depth)
    (h : Raises c s (settle s (unary f s))) : ∃ a rest, s.stack = a :: rest ∧ f a = .error c := by
  obtain ⟨a, rest, hs⟩ := stack_one hdeep
  rw [unary_cons hs] at h
  exact ⟨a, rest, hs, raises_bind_push hsafe hroom (by simp [State.depth, hs]) h⟩

theorem reason_of_raises_checkedDivision {i : Instr} {g : Int → Int → Int} (hi : i = .div ∨ i = .mod)
    (hdeep : 2 ≤ s.depth) (h : Raises c s (settle s (binary (checkedDivision g) s))) : FaultReason i s c := by
  obtain ⟨a, b, rest, hs, hf⟩ := raises_binary hsafe hroom hdeep h
  obtain ⟨rfl, rfl⟩ | ⟨rfl, hmin⟩ := checkedDivision_error hf
  · exact .zeroDivisor hi hs
  · exact .quotient hi hs hmin

theorem reason_of_raises_load (hdeep : 1 ≤ s.depth) (h : Raises c s (exec .load s)) : FaultReason .load s c := by
  obtain ⟨addr, rest, hs⟩ := stack_one hdeep
  rw [exec, execLoad_cons hs] at h
  obtain ⟨rfl, hout⟩ := memRead_error (raises_bind_push hsafe hroom (by simp [State.depth, hs]) h)
  exact .loadAddress rfl hs hout

theorem reason_of_raises_alloc (hdeep : 1 ≤ s.depth) (h : Raises c s (exec .alloc s)) : FaultReason .alloc s c := by
  obtain ⟨n, rest, hs⟩ := stack_one hdeep
  by_cases hneg : sint n < 0
  · rw [exec_alloc_negative hs hneg] at h
    obtain rfl := h.class_eq
    exact .allocLength rfl hs hneg
  by_cases hgrow : (s.heapCap : Int) < s.heap.len + sint n
  · rw [exec_alloc_full hs (by omega) (by omega)] at h
    obtain rfl := h.class_eq
    exact .heapGrowth rfl hs (by omega) hgrow
  have hfits : s.heap.len + (sint n).toNat ≤ s.heapCap := by omega
  rw [exec, execAlloc_cons hs, heapAlloc_ok (s := s.setStack rest) (by omega) hfits] at h
  obtain ⟨hc, hfull⟩ := raises_push h hsafe
  exact absurd hfull (not_full_of_popped (s := s) (hroom hc) hs)

/-- A Running engine whose depth is within STACK_CAP raises a fault for no reason but those listed. The bound is needed for
CapacityFault alone: past it, a push that follows a pop could find the stack at STACK_CAP. -/
theorem reason_of_raises {i : Instr} (h : Raises c s (exec i s)) : FaultReason i s c := by
  by_cases hshort : s.depth < i.needs
  · rw [exec_short hshort] at h
    obtain rfl := h.class_eq
    exact .tooShallow hshort
  have hdeep := Nat.not_lt.1 hshort
  cases i
  case ldc k =>
    obtain ⟨rfl, hfull⟩ := raises_push h hsafe
    exact .stackGrowth rfl hfull
  case load => exact reason_of_raises_load hsafe hroom hdeep h
  case store => exact reason_of_raises_store hsafe hdeep h
  case alloc => exact reason_of_raises_alloc hsafe hroom hdeep h
  case pop =>
    obtain ⟨a, rest, hs⟩ := stack_one hdeep
    rw [exec, execPop_cons hs] at h
    exact absurd hsafe h.not_safe
  case jmp k => exact absurd hsafe (Raises.not_safe (t := s.setPc k) h)
  case jz k =>
    obtain ⟨v, rest, hs⟩ := stack_one hdeep
    rw [exec, execJz_cons hs] at h
    refine absurd ?_ h.not_safe
    split <;> exact hsafe
  case halt => exact absurd (by simp [State.safe]) (Raises.not_safe (t := s.setStatus .halted) h)
  case add =>
    obtain ⟨a, b, rest, hs, hf⟩ := raises_binary hsafe hroom hdeep h
    obtain ⟨rfl, hout⟩ := narrow_error hf
    exact .sum rfl hs hout
  case sub =>
    obtain ⟨a, b, rest, hs, hf⟩ := raises_binary hsafe hroom hdeep h
    obtain ⟨rfl, hout⟩ := narrow_error hf
    exact .difference rfl hs hout
  case mul =>
    obtain ⟨a, b, rest, hs, hf⟩ := raises_binary hsafe hroom hdeep h
    obtain ⟨rfl, hout⟩ := narrow_error hf
    exact .product rfl hs hout
  case div =>
    rw [exec_div_eq] at h
    exact reason_of_raises_checkedDivision hsafe hroom (.inl rfl) hdeep h
  case mod =>
    rw [exec_mod_eq] at h
    exact reason_of_raises_checkedDivision hsafe hroom (.inr rfl) hdeep h
  case neg =>
    obtain ⟨a, rest, hs, hf⟩ := raises_unary hsafe hroom hdeep h
    obtain ⟨rfl, hmin⟩ := negWord_error hf
    exact .negation rfl hs hmin
  case not =>
    obtain ⟨a, rest, hs, hf⟩ := raises_unary hsafe hroom hdeep h
    cases hf
  all_goals
    obtain ⟨a, b, rest, hs, hf⟩ := raises_binary hsafe hroom hdeep h
    cases hf

end Settled

theorem raises_iff_reason {i : Instr} {s : State} {c : FaultClass} (hs : s.status = .running)
    (hroom : c = .capacityFault → s.stackWithinCap) : Raises c s (exec i s) ↔ FaultReason i s c :=
  ⟨reason_of_raises (by simp [State.safe, hs]) hroom, FaultReason.raises⟩

/-- Settles O22: `raise` writes the two items and the data, and the codes are those of R251's table. -/
theorem faultEntryWritesStatusAndCause : Obligations.FaultEntryWritesStatusAndCause := by
  refine ⟨fun f s => ⟨?_, rfl, rfl⟩, rfl, rfl, rfl, rfl, rfl, rfl, rfl, rfl⟩
  exact ⟨s.raise_status f, s.raise_cause f, s.raise_pc f, s.raise_prog f, s.raise_caps f⟩

/-- Settles O24: too shallow a stack is the one reason for StackUnderflow. -/
theorem underflowExactlyWhenTooShallow : Obligations.UnderflowExactlyWhenTooShallow := by
  intro i s hs
  rw [raises_iff_reason (c := .stackUnderflow) hs nofun]
  exact ⟨fun | .tooShallow h => h, .tooShallow⟩

/-- Settles O25: a zero divisor is the one reason for DivisionFault. -/
theorem divisionFaultExactlyOnZeroDivisor : Obligations.DivisionFaultExactlyOnZeroDivisor := by
  intro i s hs
  rw [raises_iff_reason (c := .divisionFault) hs nofun]
  exact ⟨fun | .zeroDivisor hi hs => ⟨hi, _, _, hs⟩, fun ⟨hi, _, _, hs⟩ => .zeroDivisor hi hs⟩

/-- Settles O26, from the five reasons for OverflowFault. -/
theorem overflowFaultExactlyWhenTheResultDoesNotFit : Obligations.OverflowFaultExactlyWhenTheResultDoesNotFit := by
  intro i s hs
  rw [raises_iff_reason (c := .overflowFault) hs nofun]
  constructor
  · intro h
    cases h with
    | negation hi hs h => exact .inl ⟨hi, _, _, hs, h⟩
    | sum hi hs h => exact .inr ⟨_, _, _, hs, .inl ⟨hi, h⟩⟩
    | difference hi hs h => exact .inr ⟨_, _, _, hs, .inr (.inl ⟨hi, h⟩)⟩
    | product hi hs h => exact .inr ⟨_, _, _, hs, .inr (.inr (.inl ⟨hi, h⟩))⟩
    | quotient hi hs h => exact .inr ⟨_, _, _, hs, .inr (.inr (.inr ⟨hi, h⟩))⟩
  · rintro (⟨hi, a, rest, hs, h⟩ | ⟨a, b, rest, hs, ⟨hi, h⟩ | ⟨hi, h⟩ | ⟨hi, h⟩ | ⟨hi, h⟩⟩)
    · exact .negation hi hs h
    · exact .sum hi hs h
    · exact .difference hi hs h
    · exact .product hi hs h
    · exact .quotient hi hs h

/-- Settles O27, from the three reasons for MemoryFault. -/
theorem memoryFaultExactlyOnBadOperand : Obligations.MemoryFaultExactlyOnBadOperand := by
  intro i s hs
  rw [raises_iff_reason (c := .memoryFault) hs nofun]
  constructor
  · intro h
    cases h with
    | loadAddress hi hs h => exact .inl ⟨hi, _, _, hs, h⟩
    | storeAddress hi hs h => exact .inr (.inl ⟨hi, _, _, _, hs, h⟩)
    | allocLength hi hs h => exact .inr (.inr ⟨hi, _, _, hs, h⟩)
  · rintro (⟨hi, addr, rest, hs, h⟩ | ⟨hi, addr, v, rest, hs, h⟩ | ⟨hi, n, rest, hs, h⟩)
    · exact .loadAddress hi hs h
    · exact .storeAddress hi hs h
    · exact .allocLength hi hs h

/-- Settles O28, from the three reasons for CapacityFault. -/
theorem capacityFaultExactlyOnGrowthPastACapacity : Obligations.CapacityFaultExactlyOnGrowthPastACapacity := by
  intro i s hs hcap
  rw [raises_iff_reason hs fun _ => hcap]
  constructor
  · intro h
    cases h with
    | stackGrowth hi h => exact .inl ⟨⟨_, hi⟩, h⟩
    | memoryGrowth hi hs h0 h => exact .inr (.inl ⟨hi, _, _, _, hs, h0, h⟩)
    | heapGrowth hi hs h0 h => exact .inr (.inr ⟨hi, _, _, hs, h0, h⟩)
  · rintro (⟨⟨k, hi⟩, h⟩ | ⟨hi, addr, v, rest, hs, h0, h⟩ | ⟨hi, n, rest, hs, h0, h⟩)
    · exact .stackGrowth hi h
    · exact .memoryGrowth hi hs h0 h
    · exact .heapGrowth hi hs h0 h

/-! The fault of a step. -/

/-- A step raises a class that is not the cycle's own exactly when the instruction it executes raises it (R113, R117). -/
theorem step_raises_iff {s : State} {c : FaultClass} (hs : s.status = .running)
    (hc : c ≠ .fetchOutOfRange ∧ c ≠ .illegalInstruction) :
    (∃ t, step s = .next t ∧ t.status = .faulted ∧ t.cause = some c) ↔
      ∃ i, s.executes i ∧ Raises c (s.setPc (s.pc + 1#64)) (exec i (s.setPc (s.pc + 1#64))) := by
  constructor
  · rintro ⟨t, hstep, ht, hcause⟩
    obtain ⟨-, ⟨-, rfl⟩ | ⟨hpc, iw, hiw, ⟨r, -, rfl⟩ | ⟨i, hi, hexec⟩⟩⟩ := step_cases hstep
    · exact absurd (Option.some.inj hcause).symm hc.1
    · exact absurd (Option.some.inj hcause).symm hc.2
    · have hsafe : (s.setPc (s.pc + 1#64)).safe := by simp [State.safe, hs]
      obtain ⟨f, -, -, rfl⟩ := exec_faulted hsafe hexec ht
      obtain rfl : f = c := Option.some.inj hcause
      refine ⟨i, ⟨hs, iw, (fetch_of_pcInRange hpc).trans hiw, hi⟩, ?_⟩
      rw [hexec]
      exact raises_next_raise f _
  · rintro ⟨i, ⟨-, iw, hf, hi⟩, t, hexec, hfault⟩
    exact ⟨t, (step_of_decode_ok hs hf hi).trans hexec, hfault.status_faulted, hfault.cause_is⟩

/-- Settles O59: the instruction executed is the one of O27, and the advance touches neither stack nor variable memory. -/
theorem memoryFaultIsANegativeOperandOrALoadPastTheEnd : Obligations.MemoryFaultIsANegativeOperandOrALoadPastTheEnd := by
  intro s hs
  have hoperand (i : Instr) := memoryFaultExactlyOnBadOperand i (s.setPc (s.pc + 1#64)) hs
  simp only [State.setPc_stack, State.setPc_mem] at hoperand
  rw [step_raises_iff hs (by decide)]
  simp only [hoperand]
  constructor
  · rintro ⟨i, hex, ⟨rfl, addr, rest, hst, hneg | hpast⟩ | ⟨rfl, addr, v, rest, hst, hneg⟩ | ⟨rfl, n, rest, hst, hneg⟩⟩
    · exact .inl ⟨_, addr, rest, hex, rfl, by simp [State.depth, hst, Instr.needs], hst, hneg⟩
    · exact .inr ⟨addr, rest, hex, hst, hpast⟩
    · exact .inl ⟨_, addr, v :: rest, hex, rfl, by simp [State.depth, hst, Instr.needs], hst, hneg⟩
    · exact .inl ⟨_, n, rest, hex, rfl, by simp [State.depth, hst, Instr.needs], hst, hneg⟩
  · rintro (⟨i, a, rest, hex, hreads, hdeep, hst, hneg⟩ | ⟨addr, rest, hex, hst, hpast⟩)
    · refine ⟨i, hex, ?_⟩
      cases i
      case load => exact .inl ⟨rfl, a, rest, hst, .inl hneg⟩
      case store =>
        obtain ⟨addr, v, rest', hst'⟩ := stack_two hdeep
        obtain rfl : a = addr := (List.cons.inj (hst.symm.trans hst')).1
        exact .inr (.inl ⟨rfl, a, v, rest', hst', hneg⟩)
      case alloc => exact .inr (.inr ⟨rfl, a, rest, hst, hneg⟩)
      all_goals cases hreads
    · exact ⟨.load, hex, .inl ⟨rfl, addr, rest, hst, .inr hpast⟩⟩

end Sys2Proof.Machine

/-! Well-formed programs (70_reset_and_hazards.md R302): a contained engine executes the instruction that its path has come to,
which answers a successor of that index or one of the five faults that are not the cycle's own. -/

namespace Sys2Proof

theorem target_mem_successors {x : Instr} {k : Word} (hk : x.target = some k) (h0 : 0 ≤ sint k) (i : Nat) :
    (sint k).toNat ∈ x.successors i := by
  simp [Instr.successors, hk, targetIndices, h0]

theorem next_mem_successors {x : Instr} (hx : x.endsPath = false) (i : Nat) : i + 1 ∈ x.successors i := by
  simp [Instr.successors, hx]

theorem ProgramWellFormed.target_nonneg {p : List Instr} (h : ProgramWellFormed p) {i : Nat} {x : Instr} {k : Word}
    (hx : p[i]? = some x) (hk : x.target = some k) : 0 ≤ sint k := by
  have hrange := List.all_eq_true.1 h.targets_in_range x (List.mem_of_getElem? hx)
  simp only [Instr.wellFormedIn, hk, targetInRange, Bool.and_eq_true, decide_eq_true_eq] at hrange
  exact hrange.1

end Sys2Proof

namespace Sys2Proof.Machine

/-- `decodeProgram` answers the instructions of the words, one for one. -/
theorem map_decode_of_decodeProgram {prog : List IWord} {p : List Instr} (h : decodeProgram prog = some p) :
    prog.map decode = p.map .ok := by
  induction prog generalizing p with
  | nil => cases h; rfl
  | cons iw rest ih =>
    cases hd : decode iw with
    | error r => simp [decodeProgram, hd] at h
    | ok i =>
      cases hp : decodeProgram rest with
      | none => simp [decodeProgram, hd, hp] at h
      | some q =>
        obtain rfl : i :: q = p := by simpa [decodeProgram, hd, hp] using h
        rw [List.map_cons, List.map_cons, hd, ih hp]

/-- `cause` is written with `status` Faulted and not otherwise (R28, R260). -/
def CauseMatchesStatus (s : State) : Prop := s.cause.isSome = true ↔ s.status = .faulted

theorem State.Sound.causeMatchesStatus {s : State} (h : s.Sound) : CauseMatchesStatus s := h.cause_iff

theorem CauseMatchesStatus.cause_eq_none {s : State} (h : CauseMatchesStatus s) (hs : s.status ≠ .faulted) : s.cause = none :=
  Option.not_isSome_iff_eq_none.1 (mt h.1 hs)

/-- Where an instruction that leaves the engine Running lets it go on: at the target, or at the index it advanced to. -/
theorem Ran.pc_cases {i : Instr} {s t : State} (h : Ran i s t) (ht : t.status = .running) :
    i.target = some t.pc ∨ (i.endsPath = false ∧ t.pc = s.pc) := by
  cases i
  case jmp k => cases h; exact .inl rfl
  case jz k =>
    obtain ⟨v, rest, -, ⟨-, rfl⟩ | ⟨-, rfl⟩⟩ := h
    · exact .inl rfl
    · exact .inr ⟨rfl, rfl⟩
  case halt => cases h; cases ht
  all_goals exact .inr ⟨rfl, h.pc rfl⟩

/-- A contained engine that takes a step stands in range and executes the instruction of its program at that index. -/
theorem State.Contained.step_cases {s t : State} (hs : s.Contained) (h : step s = .next t) :
    ∃ (p : List Instr) (i : Nat) (x : Instr), s.holdsWellFormed p ∧ sint s.pc = i ∧ Path p 0 i ∧ p[i]? = some x ∧
      s.pcInRange ∧ exec x (s.setPc (s.pc + 1#64)) = .next t := by
  obtain ⟨p, ⟨hdec, hwf⟩, hpath⟩ := hs
  obtain ⟨hrun, hcases⟩ := Machine.step_cases h
  obtain ⟨i, hpc, hi⟩ := hpath hrun
  have hmap := map_decode_of_decodeProgram hdec
  have hlen : s.prog.length = p.length := by simpa using congrArg List.length hmap
  have hlt := hwf.halt_on_every_path.index_lt hi
  have hin : s.pcInRange := by simp only [State.pcInRange]; omega
  have hword : s.prog[i]?.map decode = some (.ok p[i]) := by
    rw [← List.getElem?_map, hmap]
    simp [hlt]
  obtain ⟨iw, hiw, hx⟩ := Option.map_eq_some_iff.1 hword
  refine ⟨p, i, p[i], ⟨hdec, hwf⟩, hpc, hi, List.getElem?_eq_getElem hlt, hin, ?_⟩
  rw [← h, step_of_decode_ok hrun ?_ hx]
  rw [fetch_of_pcInRange hin, hpc, Int.toNat_natCast, hiw]

/-- The path goes on to where the instruction at its end leaves a Running engine. -/
theorem Ran.path {p : List Instr} {i : Nat} {x : Instr} {s t : State} (hwf : ProgramWellFormed p) (hi : Path p 0 i)
    (hx : p[i]? = some x) (hpc : sint s.pc = (i + 1 : Nat)) (h : Ran x s t) (ht : t.status = .running) :
    ∃ j : Nat, sint t.pc = j ∧ Path p 0 j := by
  obtain hk | ⟨hends, hnext⟩ := h.pc_cases ht
  · have h0 := hwf.target_nonneg hx hk
    exact ⟨(sint t.pc).toNat, (Int.toNat_of_nonneg h0).symm, hi.tail ((flow_iff hx).2 (target_mem_successors hk h0 i))⟩
  · exact ⟨i + 1, by rw [hnext, hpc], hi.tail ((flow_iff hx).2 (next_mem_successors hends i))⟩

/-- Settles O57: the instruction at the end of the path faults for a reason of its own, or lengthens the path by an edge. -/
theorem wellFormedProgramKeepsControlInside : Obligations.WellFormedProgramKeepsControlInside := by
  intro s t hsound hs h
  obtain ⟨hrun, -⟩ := step_cases h
  obtain ⟨p, i, x, ⟨hdec, hwf⟩, hpc, hi, hx, hin, hexec⟩ := hs.step_cases h
  have hprog : t.prog = s.prog := noStepWritesTheProgramStore s t h
  have hheld : t.holdsWellFormed p := ⟨hprog ▸ hdec, hwf⟩
  have hsafe : (s.setPc (s.pc + 1#64)).safe := by simp [State.safe, hrun]
  by_cases ht : t.status = .faulted
  · obtain ⟨f, hfetch, hillegal, rfl⟩ := exec_faulted hsafe hexec ht
    exact ⟨hin, ⟨p, hheld, nofun⟩, by simpa using hfetch, by simpa using hillegal⟩
  · have hran := exec_ran hexec ht
    have hcause : t.cause = none := hran.cause.trans (hsound.causeMatchesStatus.cause_eq_none hsafe)
    have hadvance : sint (s.pc + 1#64) = (i + 1 : Nat) := by
      have := hin.2
      have := hsound.prog_length
      rw [sint_add_one hin.1 (by omega), hpc, Nat.cast_succ]
    exact ⟨hin, ⟨p, hheld, hran.path hwf hi hx hadvance⟩, by simp [hcause], by simp [hcause]⟩

end Sys2Proof.Machine

/-! Runs (70_reset_and_hazards.md R303): what every step keeps holds at the end, and what the last step was. -/

namespace Sys2Proof.Machine

theorem after_succ_inv {n : Nat} {s t : State} (h : after (n + 1) s = some t) :
    ∃ u, step s = .next u ∧ after n u = some t := by
  cases hst : step s with
  | next u => exact ⟨u, rfl, after_succ hst n ▸ h⟩
  | fault | refused => simp [after, hst] at h

/-- A property that every step keeps holds after any number of steps. -/
theorem after_invariant {I : State → Prop} (hstep : ∀ s t, I s → step s = .next t → I t) {n : Nat} {s t : State} (hs : I s)
    (h : after n s = some t) : I t := by
  induction n generalizing s with
  | zero => cases h; exact hs
  | succ n ih =>
    obtain ⟨u, hst, hu⟩ := after_succ_inv h
    exact ih (hstep s u hs hst) hu

/-- The last of the steps, where there is one. -/
theorem after_succ_last {n : Nat} {s t : State} (h : after (n + 1) s = some t) :
    ∃ u, after n s = some u ∧ step u = .next t := by
  obtain ⟨u, hst, hu⟩ := after_succ_inv h
  induction n generalizing s u with
  | zero => cases hu; exact ⟨s, rfl, hst⟩
  | succ n ih =>
    obtain ⟨v, hst', hv⟩ := after_succ_inv hu
    rw [after_succ hst]
    exact ih hu v hst' hv

theorem runFor_invariant {I : State → Prop} (hstep : ∀ s t, I s → step s = .next t → I t) {n : Nat} {s t : State} (hs : I s)
    (h : runFor n s = some t) : I t ∧ t.status ≠ .running := by
  obtain ⟨k, -, hafter, hend, -⟩ := runFor_eq_some_iff.1 h
  exact ⟨after_invariant hstep hs hafter, hend⟩

/-- A run from a Running state ends with a step. -/
theorem runFor_last {n : Nat} {s t : State} (hs : s.status = .running) (h : runFor n s = some t) :
    ∃ k u, after k s = some u ∧ step u = .next t := by
  obtain ⟨_ | k, -, hend⟩ := runFor_eq_some_iff.1 h
  · exact absurd hend (not_endsAfter_zero hs)
  · obtain ⟨hafter, -, -⟩ := hend
    exact ⟨k, after_succ_last hafter⟩

theorem step_causeMatchesStatus (s t : State) (hs : CauseMatchesStatus s) (h : step s = .next t) : CauseMatchesStatus t := by
  obtain ⟨hrun, -⟩ := step_cases h
  by_cases ht : t.status = .faulted
  · refine iff_of_true ?_ ht
    obtain ⟨hcause, -⟩ | ⟨f, -, hcause, -⟩ := faultingStepLeavesPc s t h ht <;> simp [hcause]
  · refine iff_of_false ?_ ht
    obtain ⟨iw, i, -, -, hran⟩ := step_ran h ht
    simp [hran.cause, hs.cause_eq_none (by simp [hrun])]

/-- The two outcomes that Run can report (R303). -/
theorem runResult_cases {s : State} (hs : CauseMatchesStatus s) (hend : s.status ≠ .running) :
    runResult s = (1#2, 0#3) ∨ ∃ f : FaultClass, runResult s = (2#2, f.code) := by
  cases hst : s.status with
  | running => exact absurd hst hend
  | halted =>
    have hcause : s.cause = none := hs.cause_eq_none (by simp [hst])
    exact .inl (by rw [runResult, hst, hcause]; rfl)
  | faulted =>
    obtain ⟨f, hf⟩ := Option.isSome_iff_exists.1 (hs.2 hst)
    exact .inr ⟨f, by rw [runResult, hst, hf]; rfl⟩

theorem FaultClass.code_range (f : FaultClass) : 1 ≤ f.code.toNat ∧ f.code.toNat ≤ 7 := by
  cases f <;> decide

/-- Settles O3: every step keeps `cause` in agreement with `status`, so the end state has one of the two outcomes. -/
theorem runReturnsSuccessOrTypedFailure : Obligations.RunReturnsSuccessOrTypedFailure := by
  constructor
  · intro s n u c hrun hcause h
    obtain ⟨t, ht, hresult⟩ := Option.map_eq_some_iff.1 h
    have hs : CauseMatchesStatus s := by simp [CauseMatchesStatus, hrun, hcause]
    obtain ⟨hmatch, hend⟩ := runFor_invariant step_causeMatchesStatus hs ht
    obtain hok | ⟨f, hf⟩ := runResult_cases hmatch hend
    · cases hresult.symm.trans hok
      exact .inl ⟨rfl, rfl⟩
    · cases hresult.symm.trans hf
      exact .inr ⟨rfl, f.code_range⟩
  · intro s n hs
    exact ⟨runFor_at_rest hs n, by rw [run, runFor_at_rest hs]; rfl⟩

end Sys2Proof.Machine

/-! Construct and the runs from a constructed state (70_reset_and_hazards.md R300, R302). -/

namespace Sys2Proof.Machine

/-- What Construct leaves of an engine with these capacities and this count of free values (R33, log entry 10). -/
def constructed (prog : List IWord) (caps : Capacities) (freeCount : Nat) : State :=
  { State.reset with prog := prog, caps := caps, freeCount := freeCount }

theorem construct_eq_some_iff {prog : List IWord} {s t : State} :
    construct prog s = some t ↔ prog.length ≤ plenMax ∧ constructed prog s.caps s.freeCount = t := by
  by_cases hlen : prog.length ≤ plenMax
  · simp [construct, hlen, constructed, State.reset]
  · simp [construct, hlen]

/-- Settles O2: what Construct leaves is a function of the program, the capacities and the count of free values. -/
theorem constructForgetsTheEarlierState : Obligations.ConstructForgetsTheEarlierState := by
  constructor
  · intro s u t v prog hcaps ht hv
    obtain ⟨-, rfl⟩ := construct_eq_some_iff.1 ht
    obtain ⟨-, rfl⟩ := construct_eq_some_iff.1 hv
    rw [hcaps]
    rfl
  · intro s prog
    simp [Option.isSome_iff_exists, construct_eq_some_iff, plenMax]

/-- A sound engine in whose well-formed program control is inside, without a fault of the cycle. -/
structure Inside (s : State) : Prop where
  sound : s.Sound
  contained : s.Contained
  cause_ne : s.cause ≠ some .fetchOutOfRange ∧ s.cause ≠ some .illegalInstruction

theorem step_inside (s t : State) (hs : Inside s) (h : step s = .next t) : Inside t := by
  obtain ⟨-, hcontained, hcause⟩ := wellFormedProgramKeepsControlInside s t hs.sound hs.contained h
  exact ⟨everyStepKeepsTheStateSound s t hs.sound h, hcontained, hcause⟩

/-- Construct starts the engine at the empty path from index 0. -/
theorem construct_inside {prog : List IWord} {p : List Instr} {s t : State} (h : construct prog s = some t)
    (hp : t.holdsWellFormed p) : Inside t := by
  obtain ⟨hsound, -⟩ := construct_sound h
  obtain ⟨-, rfl⟩ := construct_eq_some_iff.1 h
  exact ⟨hsound, ⟨p, hp, fun _ => ⟨0, rfl, .refl⟩⟩, nofun, nofun⟩

theorem construct_running {prog : List IWord} {s t : State} (h : construct prog s = some t) : t.status = .running := by
  obtain ⟨-, rfl⟩ := construct_eq_some_iff.1 h
  rfl

/-- Settles O58: the engine is inside when constructed, and so when its run ends. -/
theorem wellFormedProgramNeverEndsInFetchOrDecodeFault : Obligations.WellFormedProgramNeverEndsInFetchOrDecodeFault := by
  intro prog p s t u n hdec hwf ht hu
  have hp : t.holdsWellFormed p := by
    obtain ⟨-, rfl⟩ := construct_eq_some_iff.1 ht
    exact ⟨hdec, hwf⟩
  obtain ⟨hinside, -⟩ := runFor_invariant step_inside (construct_inside ht hp) hu
  exact hinside.cause_ne

/-- Settles O60: of the two reasons for MemoryFault (O59), the last step of the run has the one that is no negative operand. -/
theorem wellFormedRunRaisesNoneOfTheThreeFaults : Obligations.WellFormedRunRaisesNoneOfTheThreeFaults := by
  intro prog s t u n ht hruns hu
  obtain ⟨p, hp⟩ := hruns.text
  obtain ⟨hinside, -⟩ := runFor_invariant step_inside (construct_inside ht hp) hu
  obtain ⟨hfetch, hillegal⟩ := hinside.cause_ne
  refine ⟨hfetch, hillegal, fun hmem => ?_⟩
  obtain ⟨k, v, hv, hstep⟩ := runFor_last (construct_running ht) hu
  obtain ⟨hrun, -⟩ := step_cases hstep
  have hfault : u.status = .faulted := hinside.sound.cause_iff.1 (by rw [hmem]; rfl)
  have hneg := hruns.operands k v hv
  have hreason := (memoryFaultIsANegativeOperandOrALoadPastTheEnd v hrun).1 ⟨u, hstep, hfault, hmem⟩
  exact ⟨k, v, hv, hneg, hreason.resolve_left hneg, hstep⟩

end Sys2Proof.Machine

/-! Inspect (70_reset_and_hazards.md R304). -/

namespace Sys2Proof.Machine

theorem inspect_running {s : State} (h : s.status = .running) : inspect s = none := by
  rw [inspect, h]

theorem inspect_at_rest {s : State} (h : s.status ≠ .running) :
    inspect s = some ⟨s.status.code, causeCode s.cause, s.pc, s.stack.reverse, s.mem, s.heap.len⟩ := by
  cases hs : s.status with
  | running => exact absurd hs h
  | halted | faulted => simp only [inspect, hs]

theorem Inspection.memWord_below {v : Inspection} {a : Nat} (h : a < v.mem.len) : v.memWord a = some (v.mem.get a) := if_pos h

theorem Inspection.memWord_past {v : Inspection} {a : Nat} (h : v.mem.len ≤ a) : v.memWord a = none := if_neg (Nat.not_lt.2 h)

/-- Settles O6: at rest the stack is shown reversed, and the other items are the state's own. -/
theorem inspectShowsTheEndState : Obligations.InspectShowsTheEndState := by
  refine ⟨fun s => inspect_running, fun s hs => ?_⟩
  refine ⟨_, inspect_at_rest hs, rfl, rfl, rfl, List.length_reverse, fun k hk => List.getElem?_reverse hk, rfl, ?_, ?_, rfl⟩
  · exact fun a ha => Inspection.memWord_below ha
  · exact fun a ha => Inspection.memWord_past ha

end Sys2Proof.Machine

/-! The decoder on words of 95_test_vectors.md. -/

namespace Sys2Proof

theorem decode_of_encode_eq {iw : IWord} {i : Instr} (h : encode i = iw) : decode iw = .ok i := h ▸ decode_encode i

/-- Settles O8: eight of the words are the words of their instructions, and two fall under R85 and R86. -/
theorem decoderReadsTheSpecWords : Obligations.DecoderReadsTheSpecWords :=
  ⟨decode_of_encode_eq (by decide), decode_of_encode_eq (by decide), decode_of_encode_eq (by decide),
    decode_of_encode_eq (by decide), decode_of_encode_eq (by decide), decode_of_encode_eq (by decide),
    decode_of_encode_eq (by decide), decode_of_encode_eq (by decide), rfl, rfl⟩

end Sys2Proof
